-- ==== Sys2Proof/Word.lean ====
section
/-! DEFINITION. The word types of chip-core-v7 (00_scope.md R5, R7): all values are unsigned. -/

namespace Sys2Proof

/-- "A 4-bit field of an opcode" (R7, R9): a register index, a row count, a key port index. -/
abbrev Nibble := BitVec 4

/-- A general register, a memory cell, a timer (R5: XLEN = 8). -/
abbrev Byte := BitVec 8

/-- The address field `nnn` of an instruction word (R63). -/
abbrev Addr12 := BitVec 12

/-- An instruction word, `PC`, `I`, a stack slot (R5: ILEN, PC_BITS, I_BITS = 16). -/
abbrev Word := BitVec 16

end Sys2Proof
end

