-- ==== Sys2Proof/Syntax.lean ====
section
/-! DEFINITION. The instructions of chip-core-v7, one constructor per row of spec/opcode_table.json and in its order
(30_encoding.md R64), and the one name under which a word is rejected. -/

namespace Sys2Proof

/-- An instruction with the fields of R63. Don't-care fields (R68: `nnn` of sys-noop, `y` of the shifts) are kept, so
that a word and its instruction determine each other; no meaning reads them (log entry 12). -/
inductive Instr where
  | sysNoop (nnn : Addr12)
  | clearScreen
  | ret
  | jump (nnn : Addr12)
  | call (nnn : Addr12)
  | skipEqByte (x : Nibble) (nn : Byte)
  | skipNeByte (x : Nibble) (nn : Byte)
  | skipEqReg (x y : Nibble)
  | loadByte (x : Nibble) (nn : Byte)
  | addByte (x : Nibble) (nn : Byte)
  | loadReg (x y : Nibble)
  | orReg (x y : Nibble)
  | andReg (x y : Nibble)
  | xorReg (x y : Nibble)
  | addReg (x y : Nibble)
  | sub (x y : Nibble)
  | shiftRight (x y : Nibble)
  | subn (x y : Nibble)
  | shiftLeft (x y : Nibble)
  | skipNeReg (x y : Nibble)
  | loadIndex (nnn : Addr12)
  | jumpOffset (nnn : Addr12)
  | random (x : Nibble) (nn : Byte)
  | draw (x y n : Nibble)
  | skipKeyPressed (x : Nibble)
  | skipKeyNotPressed (x : Nibble)
  | loadDelay (x : Nibble)
  | awaitKey (x : Nibble)
  | storeDelay (x : Nibble)
  | loadSoundStore (x : Nibble)
  | addIndex (x : Nibble)
  | fontAddress (x : Nibble)
  | storeBcd (x : Nibble)
  | storeBlock (x : Nibble)
  | loadBlock (x : Nibble)
  deriving DecidableEq, Repr

/-- Why bytes decode to no instruction. -/
inductive DecodeError where
  /-- "Unrecognized opcodes fail with an `UnknownOpcode` condition carrying the raw 16-bit value" (R67). -/
  | unknownOpcode (op : Word)
  /-- Fewer than two bytes: every instruction is exactly two (R61). -/
  | truncated
  deriving DecidableEq, Repr

/-- What the decoder answers: an instruction, or a rejection by name. -/
inductive Decoded where
  | instr (i : Instr)
  | rejected (e : DecodeError)
  deriving DecidableEq, Repr

end Sys2Proof
end

