-- ==== Sys2Proof/WellFormed.lean ====
section
/-! DEFINITION. Which terms of Instr are instructions of the hardware. The field widths are in the types, so one check
is left: R64 row 1 and R65 take the words 0x00E0 and 0x00EE out of sys-noop. -/

namespace Sys2Proof

/-- A sys-noop whose field is 0x0E0 or 0x0EE is no instruction: those words are clear-screen and return (R64, R65). -/
def Instr.wellFormed : Instr → Bool
  | .sysNoop nnn => nnn != 0x0E0 && nnn != 0x0EE
  | _ => true

/-- `Instr.wellFormed` as a proposition. -/
abbrev Instr.WellFormed (i : Instr) : Prop := i.wellFormed = true

end Sys2Proof
end

