-- ==== Sys2Proof/Decode.lean ====
section
/-! DEFINITION. Decoding and encoding (30_encoding.md R61 to R68), the byte order of an instruction word (20_memory.md
R42), and the opcode table's masks and patterns (R64). The bit patterns are the spec's (log entry 2). -/

namespace Sys2Proof

/-! ## Byte order -/

/-- "Big-endian, high byte first": `{MEM[a], MEM[a+1]}` (R42, R43). -/
def wordOfBytes (hi lo : Byte) : Word := hi ++ lo

/-- The byte of a word that lies at the lower address (R61). -/
def hiByte (w : Word) : Byte := w.extractLsb' 8 8

/-- The byte of a word that lies at the higher address (R61). -/
def loByte (w : Word) : Byte := w.extractLsb' 0 8

/-! ## Fields (R63) -/

/-- Nibble 3, `op[15:12]`, the family (R62). -/
def fieldFamily (op : Word) : Nibble := op.extractLsb' 12 4

/-- `x = op[11:8]`. -/
def fieldX (op : Word) : Nibble := op.extractLsb' 8 4

/-- `y = op[7:4]`. -/
def fieldY (op : Word) : Nibble := op.extractLsb' 4 4

/-- `n = op[3:0]`. -/
def fieldN (op : Word) : Nibble := op.extractLsb' 0 4

/-- `nn = op[7:0]`. -/
def fieldNN (op : Word) : Byte := op.extractLsb' 0 8

/-- `nnn = op[11:0]`. -/
def fieldNNN (op : Word) : Addr12 := op.extractLsb' 0 12

/-! ## The decoder (R65) -/

/-- Family 0: the two fixed words first, every other word is sys-noop (R65, R66). -/
def decodeFamily0 (op : Word) : Decoded :=
  if op = 0x00E0 then .instr .clearScreen
  else if op = 0x00EE then .instr .ret
  else .instr (.sysNoop (fieldNNN op))

/-- Family 8: the sub-opcode is `n` (R65). -/
def decodeFamily8 (op : Word) : Decoded :=
  let x := fieldX op
  let y := fieldY op
  match (fieldN op).toNat with
  | 0x0 => .instr (.loadReg x y)
  | 0x1 => .instr (.orReg x y)
  | 0x2 => .instr (.andReg x y)
  | 0x3 => .instr (.xorReg x y)
  | 0x4 => .instr (.addReg x y)
  | 0x5 => .instr (.sub x y)
  | 0x6 => .instr (.shiftRight x y)
  | 0x7 => .instr (.subn x y)
  | 0xE => .instr (.shiftLeft x y)
  | _ => .rejected (.unknownOpcode op)

/-- Family E: the sub-opcode is `nn` (R65). -/
def decodeFamilyE (op : Word) : Decoded :=
  let x := fieldX op
  match (fieldNN op).toNat with
  | 0x9E => .instr (.skipKeyPressed x)
  | 0xA1 => .instr (.skipKeyNotPressed x)
  | _ => .rejected (.unknownOpcode op)

/-- Family F: the sub-opcode is `nn` (R65). -/
def decodeFamilyF (op : Word) : Decoded :=
  let x := fieldX op
  match (fieldNN op).toNat with
  | 0x07 => .instr (.loadDelay x)
  | 0x0A => .instr (.awaitKey x)
  | 0x15 => .instr (.storeDelay x)
  | 0x18 => .instr (.loadSoundStore x)
  | 0x1E => .instr (.addIndex x)
  | 0x29 => .instr (.fontAddress x)
  | 0x33 => .instr (.storeBcd x)
  | 0x55 => .instr (.storeBlock x)
  | 0x65 => .instr (.loadBlock x)
  | _ => .rejected (.unknownOpcode op)

/-- `decode` of R65, total on all 65536 words: "case op[15:12]". Families 5 and 9 want `n = 0` (R67). -/
def decode (op : Word) : Decoded :=
  match (fieldFamily op).toNat with
  | 0x0 => decodeFamily0 op
  | 0x1 => .instr (.jump (fieldNNN op))
  | 0x2 => .instr (.call (fieldNNN op))
  | 0x3 => .instr (.skipEqByte (fieldX op) (fieldNN op))
  | 0x4 => .instr (.skipNeByte (fieldX op) (fieldNN op))
  | 0x5 => if fieldN op = 0 then .instr (.skipEqReg (fieldX op) (fieldY op)) else .rejected (.unknownOpcode op)
  | 0x6 => .instr (.loadByte (fieldX op) (fieldNN op))
  | 0x7 => .instr (.addByte (fieldX op) (fieldNN op))
  | 0x8 => decodeFamily8 op
  | 0x9 => if fieldN op = 0 then .instr (.skipNeReg (fieldX op) (fieldY op)) else .rejected (.unknownOpcode op)
  | 0xA => .instr (.loadIndex (fieldNNN op))
  | 0xB => .instr (.jumpOffset (fieldNNN op))
  | 0xC => .instr (.random (fieldX op) (fieldNN op))
  | 0xD => .instr (.draw (fieldX op) (fieldY op) (fieldN op))
  | 0xE => decodeFamilyE op
  | _ => decodeFamilyF op

/-- Decoding from memory bytes: the first two make the word, the rest is handed back (R61: one length). -/
def decodeBytes : List Byte → Decoded × List Byte
  | hi :: lo :: rest => (decode (wordOfBytes hi lo), rest)
  | bytes => (.rejected .truncated, bytes)

/-- The instruction word whose bits are `w`, numbered as the opcode table numbers them; bits from `nbits` on are zero. -/
def tableWord (nbits w : Nat) : Word := BitVec.ofNat 16 (w % 2 ^ nbits)

/-- The instruction the decoder reads from an instruction whose bits are `w`, numbered as the opcode table numbers
them. The word is laid out high byte first (R42). -/
def decodeTableWord (nbits w : Nat) : Option Instr :=
  let op := tableWord nbits w
  match decodeBytes [hiByte op, loByte op] with
  | (.instr i, _) => some i
  | (.rejected _, _) => none

/-! ## The encoder (R62, R64) -/

/-- The word of an instruction: the pattern column of R64 with the fields put in. -/
def encode : Instr → Word
  | .sysNoop nnn => 0x0#4 ++ nnn
  | .clearScreen => 0x00E0#16
  | .ret => 0x00EE#16
  | .jump nnn => 0x1#4 ++ nnn
  | .call nnn => 0x2#4 ++ nnn
  | .skipEqByte x nn => 0x3#4 ++ x ++ nn
  | .skipNeByte x nn => 0x4#4 ++ x ++ nn
  | .skipEqReg x y => 0x5#4 ++ x ++ y ++ 0x0#4
  | .loadByte x nn => 0x6#4 ++ x ++ nn
  | .addByte x nn => 0x7#4 ++ x ++ nn
  | .loadReg x y => 0x8#4 ++ x ++ y ++ 0x0#4
  | .orReg x y => 0x8#4 ++ x ++ y ++ 0x1#4
  | .andReg x y => 0x8#4 ++ x ++ y ++ 0x2#4
  | .xorReg x y => 0x8#4 ++ x ++ y ++ 0x3#4
  | .addReg x y => 0x8#4 ++ x ++ y ++ 0x4#4
  | .sub x y => 0x8#4 ++ x ++ y ++ 0x5#4
  | .shiftRight x y => 0x8#4 ++ x ++ y ++ 0x6#4
  | .subn x y => 0x8#4 ++ x ++ y ++ 0x7#4
  | .shiftLeft x y => 0x8#4 ++ x ++ y ++ 0xE#4
  | .skipNeReg x y => 0x9#4 ++ x ++ y ++ 0x0#4
  | .loadIndex nnn => 0xA#4 ++ nnn
  | .jumpOffset nnn => 0xB#4 ++ nnn
  | .random x nn => 0xC#4 ++ x ++ nn
  | .draw x y n => 0xD#4 ++ x ++ y ++ n
  | .skipKeyPressed x => 0xE#4 ++ x ++ 0x9E#8
  | .skipKeyNotPressed x => 0xE#4 ++ x ++ 0xA1#8
  | .loadDelay x => 0xF#4 ++ x ++ 0x07#8
  | .awaitKey x => 0xF#4 ++ x ++ 0x0A#8
  | .storeDelay x => 0xF#4 ++ x ++ 0x15#8
  | .loadSoundStore x => 0xF#4 ++ x ++ 0x18#8
  | .addIndex x => 0xF#4 ++ x ++ 0x1E#8
  | .fontAddress x => 0xF#4 ++ x ++ 0x29#8
  | .storeBcd x => 0xF#4 ++ x ++ 0x33#8
  | .storeBlock x => 0xF#4 ++ x ++ 0x55#8
  | .loadBlock x => 0xF#4 ++ x ++ 0x65#8

/-- The two bytes of an instruction as they lie in memory, high byte at the lower address (R61). -/
def encodeBytes (i : Instr) : List Byte := [hiByte (encode i), loByte (encode i)]

/-! ## The opcode table (R64) -/

/-- The mask column of R64. -/
def rowMask : Instr → Word
  | .clearScreen | .ret => 0xFFFF
  | .skipEqReg _ _ | .skipNeReg _ _ | .loadReg _ _ | .orReg _ _ | .andReg _ _ | .xorReg _ _ | .addReg _ _ | .sub _ _
  | .shiftRight _ _ | .subn _ _ | .shiftLeft _ _ => 0xF00F
  | .skipKeyPressed _ | .skipKeyNotPressed _ | .loadDelay _ | .awaitKey _ | .storeDelay _ | .loadSoundStore _
  | .addIndex _ | .fontAddress _ | .storeBcd _ | .storeBlock _ | .loadBlock _ => 0xF0FF
  | .sysNoop _ | .jump _ | .call _ | .skipEqByte _ _ | .skipNeByte _ _ | .loadByte _ _ | .addByte _ _ | .loadIndex _
  | .jumpOffset _ | .random _ _ | .draw _ _ _ => 0xF000

/-- The match column of R64. -/
def rowMatch : Instr → Word
  | .sysNoop _ => 0x0000
  | .clearScreen => 0x00E0
  | .ret => 0x00EE
  | .jump _ => 0x1000
  | .call _ => 0x2000
  | .skipEqByte _ _ => 0x3000
  | .skipNeByte _ _ => 0x4000
  | .skipEqReg _ _ => 0x5000
  | .loadByte _ _ => 0x6000
  | .addByte _ _ => 0x7000
  | .loadReg _ _ => 0x8000
  | .orReg _ _ => 0x8001
  | .andReg _ _ => 0x8002
  | .xorReg _ _ => 0x8003
  | .addReg _ _ => 0x8004
  | .sub _ _ => 0x8005
  | .shiftRight _ _ => 0x8006
  | .subn _ _ => 0x8007
  | .shiftLeft _ _ => 0x800E
  | .skipNeReg _ _ => 0x9000
  | .loadIndex _ => 0xA000
  | .jumpOffset _ => 0xB000
  | .random _ _ => 0xC000
  | .draw _ _ _ => 0xD000
  | .skipKeyPressed _ => 0xE09E
  | .skipKeyNotPressed _ => 0xE0A1
  | .loadDelay _ => 0xF007
  | .awaitKey _ => 0xF00A
  | .storeDelay _ => 0xF015
  | .loadSoundStore _ => 0xF018
  | .addIndex _ => 0xF01E
  | .fontAddress _ => 0xF029
  | .storeBcd _ => 0xF033
  | .storeBlock _ => 0xF055
  | .loadBlock _ => 0xF065

end Sys2Proof
end

