-- ==== Sys2Proof/Config.lean ====
section
/-! DEFINITION. The implementation parameters of 00_scope.md R5 and the one free value of the model. The constants R5
fixes are definitions; the ones it marks "parameter" are the fields of `Config`, which every definition takes as an
argument by way of State (log entry 19). Their defaults are in Machine/Params.lean; `VF_OPERAND_POLICY` of decision D12,
which R5 does not list, is at its default `flag_last` (log entry 5). -/

namespace Sys2Proof

/-- The parameters of R5: "a model takes the ones marked parameter as arguments of its configuration". -/
structure Config where
  /-- `GLYPH_ROM[0..79]`: the bytes memory 0x000 to 0x04F is seeded with at reset (R5, R24, R27). -/
  glyphRom : Vector Byte 80
  /-- `STACK_DEPTH`: how many return addresses the stack holds (R5, R17); at most 31, what the 5-bit counter `SP` can
  show (R23; log entry 19). -/
  stackDepth : Fin 32
  deriving DecidableEq, Repr

/-- `MEM_SIZE`: addresses 0x000 to 0xFFF (R5, R20). -/
abbrev Config.memSize : Nat := 4096

/-- `LOAD_BASE`: where the program image goes and where `PC` starts (R5, R41). -/
abbrev Config.loadBase : Nat := 0x200

/-- `ROM_MAX`: the largest program image in bytes, `MEM_SIZE - LOAD_BASE` (R5, R166). -/
abbrev Config.romMax : Nat := 3584

/-- FREE VALUE (log entry 1): the `k`-th random byte the host's oracle supplies (R111, R169: `rnd` of `step`, drawn
once per executed random instruction, under no law). It has no body: no proof can see what it is. -/
opaque Config.randomByte : Nat → Byte

/-- OPEN PARAMETER (log entry 14): the host's tick rate `TICK_HZ` (R5, R161). No rule depends on it and no definition
of the model uses it. -/
opaque Config.tickHz : Nat

end Sys2Proof
end

