-- ==== Sys2Proof/Machine/Params.lean ====
section
/-! DEFINITION. The defaults of the parameters of 00_scope.md R5: the configuration State.reset is built with. -/

namespace Sys2Proof

/-- The default of `GLYPH_ROM`: sixteen glyphs of five rows (R24; log entry 3). -/
def Config.defaultGlyphs : List Byte :=
  [0xF0, 0x90, 0x90, 0x90, 0xF0] ++ [0x20, 0x60, 0x20, 0x20, 0x70] ++
  [0xF0, 0x10, 0xF0, 0x80, 0xF0] ++ [0xF0, 0x10, 0xF0, 0x10, 0xF0] ++
  [0x90, 0x90, 0xF0, 0x10, 0x10] ++ [0xF0, 0x80, 0xF0, 0x10, 0xF0] ++
  [0xF0, 0x80, 0xF0, 0x90, 0xF0] ++ [0xF0, 0x10, 0x20, 0x40, 0x40] ++
  [0xF0, 0x90, 0xF0, 0x90, 0xF0] ++ [0xF0, 0x90, 0xF0, 0x10, 0xF0] ++
  [0xF0, 0x90, 0xF0, 0x90, 0x90] ++ [0xE0, 0x90, 0xE0, 0x90, 0xE0] ++
  [0xF0, 0x80, 0x80, 0x80, 0xF0] ++ [0xE0, 0x90, 0x90, 0x90, 0xE0] ++
  [0xF0, 0x80, 0xF0, 0x80, 0xF0] ++ [0xF0, 0x80, 0xF0, 0x80, 0x80]

/-- The default configuration: the conventional font and `STACK_DEPTH = 16` (R5, R24; decisions D3, D5). -/
def Config.default : Config where
  glyphRom := ⟨Config.defaultGlyphs.toArray, by decide⟩
  stackDepth := 16

end Sys2Proof
end

