-- ==== Sys2Proof/Machine/State.lean ====
section
/-! DEFINITION. The state of chip-core-v7 as plain data (10_state.md), its reset value (R27, R180), and the reasons a
step can stop. The tuple of 10_state.md is `(V, I, PC, SP, STACK, DT, ST, KEY, FB, MEM, FAULT)`; `config` and `draws` are the
model's own. -/

namespace Sys2Proof.Machine

/-- The values of `FAULT.code` by name (R22, R151; the numbers are `FaultCode.toBits` in Ops.lean). -/
inductive FaultCode where
  /-- 0: no fault recorded. -/
  | none
  /-- 1: the fetched word selects no instruction (R67). Raised by step's decode. -/
  | unknownOpcode
  /-- 2: call with `STACK_DEPTH` return addresses saved (R83). -/
  | stackOverflow
  /-- 3: return with an empty stack (R81). -/
  | stackUnderflow
  /-- 4: `PC > 0xFFE` at the start of a step (R43). -/
  | fetchOutOfBounds
  /-- 5: draw, store-bcd, store-block or load-block would touch an address above 0xFFF (R46). -/
  | memoryOutOfBounds
  /-- 6: a key skip with `V[x] > 15` (R140, R141). -/
  | keyIndexOutOfRange
  /-- 7: reserved, never raised (R69). -/
  | invalidDecode
  deriving DecidableEq, Repr

/-- The fault record `FAULT` (R22). -/
structure FaultRecord where
  code : FaultCode
  pc : Word
  opcode : Word
  info : Word
  deriving DecidableEq, Repr

/-- `MEM[0..4095]` (R20) as the cells that differ from the reset contents: addresses strictly rising, below 4096, no
cell equal to what an unlisted address reads as (`Memory.unlisted`, `Memory.wf` in Ops.lean; `State.byte` reads). -/
abbrev Memory := List Host.Cell

/-- `FB[y][x]` (R18): 32 rows of 64 pixels, true is set. -/
abbrev FrameBuffer := Vector (Vector Bool 64) 32

/-- Everything 10_state.md gives the machine, its configuration, and the counter of the free random bytes. -/
structure State where
  /-- THE MODEL'S OWN: the parameters of R5 this machine is built with, changed by nothing (log entry 19). -/
  config : Config
  /-- `V[0..15]`; `V[15]` is the flag register VF (R10, R12). -/
  v : Vector Byte 16
  /-- The index register `I` (R16). -/
  i : Word
  /-- The program counter `PC` (R14). -/
  pc : Word
  /-- The stack depth `SP`, a 5-bit counter, 0 to `STACK_DEPTH` in every reachable state (R17, R23; log entry 17). -/
  sp : Fin 32
  /-- `STACK[0..STACK_DEPTH-1]` (R17); the places from `STACK_DEPTH` on are no slots and stay 0 (log entry 17). -/
  stack : Vector Word 31
  /-- The delay timer `DT` (R21). -/
  dt : Byte
  /-- The sound timer `ST` (R21). -/
  st : Byte
  /-- The key flags `KEY[0..15]` (R19). -/
  keys : Vector Bool 16
  /-- The frame buffer `FB` (R18). -/
  fb : FrameBuffer
  /-- Memory `MEM` (R20). -/
  mem : Memory
  /-- The fault record `FAULT` (R22). -/
  fault : FaultRecord
  /-- THE MODEL'S OWN: how many random bytes have been drawn; `rnd` of the next executed random is
  `Config.randomByte draws` (R111; log entry 1). -/
  draws : Nat
  deriving DecidableEq, Repr

/-- `FAULT` with no fault recorded (R27). -/
def FaultRecord.clear : FaultRecord := { code := .none, pc := 0, opcode := 0, info := 0 }

/-- The state after the `reset` transaction of a machine with the given parameters (R27, R180): `PC = 0x200`, no memory
cell listed (so every address reads as its reset content, the glyphs among them), everything else zero. `draws` starts
at 0 (log entry 1). -/
def State.resetWith (c : Config) : State where
  config := c
  v := Vector.replicate 16 0
  i := 0
  pc := 0x200
  sp := 0
  stack := Vector.replicate 31 0
  dt := 0
  st := 0
  keys := Vector.replicate 16 false
  fb := Vector.replicate 32 (Vector.replicate 64 false)
  mem := []
  fault := FaultRecord.clear
  draws := 0

/-- The state after reset at the default parameters (R5, R24, R27). -/
def State.reset : State := State.resetWith Config.default

/-- Reasons for `Host.Outcome.fault`. Every fault of the spec is entered in the fault record `FAULT` and the core goes
on to a next state (R150, R157), so no step of this model ends here; the one name is the source's "dispatcher bug". -/
inductive Fault where
  /-- `InvalidDecode`: "must never occur" (R69). Raised by nobody, since decode is total (R65). Safe. -/
  | invalidDecode
  deriving DecidableEq, Repr

/-- Reasons for `Host.Outcome.refused`. -/
inductive Refusal where
  /-- Raised by an arm of exec whose instruction has no meaning yet; every instruction has one. Safe. -/
  | notModelled (mnemonic : String)
  deriving DecidableEq, Repr

end Sys2Proof.Machine
end

