-- ==== Sys2Proof/Machine/Ops.lean ====
section
/-! DEFINITION. The named operations over memory, registers, stack, timers, keys and pixels, and `raise`, the one
operation that enters a fault. -/

namespace Sys2Proof.Machine

/-! ## Memory (20_memory.md) -/

/-- What an unlisted address reads as: its reset content, a byte of `GLYPH_ROM` in 0x000 to 0x04F and zero above
(R27). -/
def Memory.unlisted (rom : Vector Byte 80) (a : Nat) : Byte := rom[a]?.getD 0

/-- The byte at `a`, listed or not, no check. -/
def Memory.read (rom : Vector Byte 80) : Memory → Nat → Byte
  | [], a => Memory.unlisted rom a
  | (k, b) :: rest, a => if k = a then b else Memory.read rom rest a

/-- List the cell `(a, b)` at its place, in place of a cell at `a`. -/
def Memory.insert : Memory → Nat → Byte → Memory
  | [], a, b => [(a, b)]
  | (k, c) :: rest, a, b =>
    if a < k then (a, b) :: (k, c) :: rest
    else if a = k then (a, b) :: rest
    else (k, c) :: Memory.insert rest a b

/-- Unlist address `a`. -/
def Memory.erase (m : Memory) (a : Nat) : Memory := m.filter fun cell => cell.1 != a

/-- `MEM[a] <- b` for a checked address; "no write beyond index 4095 is permitted", so one beyond is dropped (R45; no
meaning asks for one, R46). Writing the reset content unlists the cell. -/
def Memory.write (rom : Vector Byte 80) (m : Memory) (a : Nat) (b : Byte) : Memory :=
  if a < Config.memSize then
    if b = Memory.unlisted rom a then Memory.erase m a else Memory.insert m a b
  else m

/-- The canonical form: addresses strictly rising from `lo` on and inside the address space, no cell equal to what an
unlisted address reads as. -/
def Memory.wfFrom (rom : Vector Byte 80) : Nat → Memory → Bool
  | _, [] => true
  | lo, (k, b) :: rest =>
    decide (lo ≤ k) && decide (k < Config.memSize) && (b != Memory.unlisted rom k) && Memory.wfFrom rom (k + 1) rest

/-- The memory is in its canonical form. -/
def Memory.wf (rom : Vector Byte 80) (m : Memory) : Bool := Memory.wfFrom rom 0 m

/-- Write the bytes to `a`, `a+1`, … in ascending order (R42). -/
def Memory.writeRange (rom : Vector Byte 80) : Memory → Nat → List Byte → Memory
  | m, _, [] => m
  | m, a, b :: rest => Memory.writeRange rom (Memory.write rom m a b) (a + 1) rest

/-- `MEM[a]`, no check (R8). -/
def State.byte (s : State) (a : Nat) : Byte := Memory.read s.config.glyphRom s.mem a

/-- The bytes at `a`, `a+1`, …, `a+count-1`. -/
def State.bytes (s : State) (a count : Nat) : List Byte := (List.range count).map fun k => s.byte (a + k)

/-- `MEM[a] <- …, MEM[a+1] <- …` from a list of bytes, no check (R42). -/
def State.storeBytes (s : State) (a : Nat) (bytes : List Byte) : State :=
  { s with mem := Memory.writeRange s.config.glyphRom s.mem a bytes }

/-- `Fetch(a)`: two bytes, big-endian; `none` is FetchOutOfBounds, both bytes must exist (R43). -/
def State.fetch (s : State) (a : Word) : Option Word :=
  if a.toNat > 0xFFE then none
  else some (wordOfBytes (s.byte a.toNat) (s.byte (a.toNat + 1)))

/-! ## Registers (10_state.md R10 to R16) -/

/-- `V[x]`. -/
def State.reg (s : State) (x : Nibble) : Byte := s.v[x.toNat]'x.isLt

/-- `V[x] <- b`. -/
def State.setReg (s : State) (x : Nibble) (b : Byte) : State := { s with v := s.v.set x.toNat b x.isLt }

/-- `V[0] <- …, V[1] <- …` from a list of bytes, from register `k` on (load-block's loop, R125). -/
def State.setRegsFrom : State → Nat → List Byte → State
  | s, _, [] => s
  | s, k, b :: rest => State.setRegsFrom (s.setReg (BitVec.ofNat 4 k) b) (k + 1) rest

/-- `V[0]`, …, `V[x]` (store-block's operands, R124). -/
def State.regsUpTo (s : State) (x : Nibble) : List Byte :=
  (List.range (x.toNat + 1)).map fun k => s.reg (BitVec.ofNat 4 k)

/-- `VF`, register 15 (R12). -/
def vf : Nibble := 15

/-- `V[15] <- flag`, after the result (R13). -/
def State.setFlag (s : State) (flag : Byte) : State := s.setReg vf flag

/-- `I <- w` (R16). -/
def State.setI (s : State) (w : Word) : State := { s with i := w }

/-- `PC <- w` (R14). -/
def State.setPC (s : State) (w : Word) : State := { s with pc := w }

/-- `PC <- A + 2` (R15). -/
def State.advance (s : State) : State := s.setPC (s.pc + 2)

/-- `PC <- A + 4` if the condition holds, else `PC <- A + 2` (R15). -/
def State.skipIf (s : State) (cond : Bool) : State := s.setPC (s.pc + if cond then 4 else 2)

/-! ## The return-address stack (10_state.md R17) -/

/-- `STACK[SP] <- w; SP <- SP + 1`; `none` when `STACK_DEPTH` entries are saved. -/
def State.push (s : State) (w : Word) : Option State :=
  if h : s.sp.val < s.config.stackDepth.val then
    some { s with stack := s.stack.set s.sp.val w (by omega), sp := ⟨s.sp.val + 1, by omega⟩ }
  else none

/-- `SP <- SP - 1` and the old `STACK[SP-1]`, whose slot keeps its content; `none` when the stack is empty. -/
def State.pop (s : State) : Option (Word × State) :=
  if h : 0 < s.sp.val then
    some (s.stack[s.sp.val - 1]'(by omega), { s with sp := ⟨s.sp.val - 1, by omega⟩ })
  else none

/-! ## Timers, keys, pixels -/

/-- `DT <- b` (R21). -/
def State.setDT (s : State) (b : Byte) : State := { s with dt := b }

/-- `ST <- b` (R21). -/
def State.setST (s : State) (b : Byte) : State := { s with st := b }

/-- `KEY[k]` (R19). -/
def State.key (s : State) (k : Nibble) : Bool := s.keys[k.toNat]'k.isLt

/-- `KEY[k] <- on` (R162, R143). -/
def State.setKeyFlag (s : State) (k : Nibble) (on : Bool) : State := { s with keys := s.keys.set k.toNat on k.isLt }

/-- The smallest index at or above `k` of a set flag in the list of flags from `k` on (R143: ascending scan). -/
def firstSetFrom : Nat → List Bool → Option Nat
  | _, [] => none
  | k, on :: rest => if on then some k else firstSetFrom (k + 1) rest

/-- The lowest set key, if any key is set (R143). -/
def State.firstKey (s : State) : Option Nibble := (firstSetFrom 0 s.keys.toList).map (BitVec.ofNat 4)

/-- `FB[y][x]` (R18). -/
def FrameBuffer.pixel (fb : FrameBuffer) (y : Fin 32) (x : Fin 64) : Bool := fb[y.val][x.val]

/-- `FB[y][x] <- on`. -/
def FrameBuffer.setPixel (fb : FrameBuffer) (y : Fin 32) (x : Fin 64) (on : Bool) : FrameBuffer :=
  fb.set y.val (fb[y.val].set x.val on)

/-- Every pixel false (R130). -/
def FrameBuffer.clear : FrameBuffer := Vector.replicate 32 (Vector.replicate 64 false)

/-- The screen after a draw or a clear (R18). -/
def State.setFB (s : State) (fb : FrameBuffer) : State := { s with fb := fb }

/-! ## The random byte (41_alu.md R111) -/

/-- `rnd` of this step: free, one per executed random (log entry 1). -/
def State.rnd (s : State) : Byte := Config.randomByte s.draws

/-- The next executed random takes a fresh byte. -/
def State.countDraw (s : State) : State := { s with draws := s.draws + 1 }

/-! ## Faults (60_exceptions.md R150, R151, R157) -/

/-- The three bits of `FAULT.code` (R22). -/
def FaultCode.toBits : FaultCode → BitVec 3
  | .none => 0
  | .unknownOpcode => 1
  | .stackOverflow => 2
  | .stackUnderflow => 3
  | .fetchOutOfBounds => 4
  | .memoryOutOfBounds => 5
  | .keyIndexOutOfRange => 6
  | .invalidDecode => 7

/-- `raise F(info)` (R150): nothing changes but the fault record, which takes the code, the `PC` of the step, the
fetched word and the info; `PC` stays at the faulting instruction. -/
def State.raise (s : State) (code : FaultCode) (opcode info : Word) : State :=
  { s with fault := { code := code, pc := s.pc, opcode := opcode, info := info } }

/-- The outcome of an instruction that raises: a next state, the halted core (R157). The word recorded is the
instruction's own (log entry 6). -/
def raiseIn (i : Instr) (code : FaultCode) (info : Word) (s : State) : Host.Outcome State Fault Refusal :=
  .next (s.raise code (encode i) info)

/-- A fault is recorded: the core is halted (R157). -/
def State.halted (s : State) : Bool := s.fault.code != .none

end Sys2Proof.Machine
end

