-- ==== Sys2Proof/Machine/Cycle.lean ====
section
/-! DEFINITION. The fetch, decode, execute cycle of one step around the instruction meanings (30_encoding.md R60), and
where its next instruction word lies in memory. -/

namespace Sys2Proof.Machine

/-- R60: a halted core does nothing; the fetch may raise FetchOutOfBounds, the decode UnknownOpcode; else `run` executes
the instruction, which writes `PC` itself. -/
def cycle (run : Instr → State → Host.Outcome State Fault Refusal) (s : State) : Host.Outcome State Fault Refusal :=
  if s.halted then .next s
  else
    match s.fetch s.pc with
    | none => .next (s.raise .fetchOutOfBounds 0 0)
    | some op =>
      match decode op with
      | .rejected _ => .next (s.raise .unknownOpcode op 0)
      | .instr i => run i s

/-- The instruction a step from `s` would execute, if it gets as far (R60). -/
def State.pendingInstr (s : State) : Option Instr :=
  if s.halted then none
  else
    match s.fetch s.pc with
    | none => none
    | some op =>
      match decode op with
      | .rejected _ => none
      | .instr i => some i

/-- `s` with the word stored big-endian at `PC`, where the next step fetches; a `PC` above 0xFFE has no such place, and
`s` is unchanged (log entry 11). -/
def State.placeAtPC (s : State) (op : Word) : State :=
  if s.pc.toNat > 0xFFE then s
  else s.storeBytes s.pc.toNat [hiByte op, loByte op]

end Sys2Proof.Machine
end

