-- ==== Sys2Proof/Machine/Flags.lean ====
section
/-! DEFINITION. The results and flags of the flag-defining instructions (10_state.md R12, 41_alu.md R112). A flag byte is
0x00 or 0x01. -/

namespace Sys2Proof.Machine

/-- "The flag value written is always the full byte 0x00 or 0x01" (R12). -/
def flagByte (on : Bool) : Byte := if on then 1 else 0

/-- 1 if the exact sum is above 255 (R106). -/
def carryFlag (a b : Byte) : Byte := flagByte (decide (a.toNat + b.toNat > 255))

/-- 1 if `a >= b`: no borrow in `a - b` (R107, R110). -/
def notBorrowFlag (a b : Byte) : Byte := flagByte (decide (b.toNat ≤ a.toNat))

/-- Bit 0 before a right shift (R108). -/
def lostLowFlag (a : Byte) : Byte := flagByte (a.getLsbD 0)

/-- Bit 7 before a left shift (R109). -/
def lostHighFlag (a : Byte) : Byte := flagByte (a.getLsbD 7)

/-- The end of a flag-defining instruction: the result, then the flag, then the advance (R13, R106 to R110). -/
def State.setResultAndFlag (s : State) (x : Nibble) (result flag : Byte) : State :=
  ((s.setReg x result).setFlag flag).advance

end Sys2Proof.Machine
end

