-- ==== Sys2Proof/Machine/Operands.lean ====
section
/-! DEFINITION. Operand forms (30_encoding.md R63, 42_index_memory.md R126): registers and zero-extended immediates, the
one addressing mode `I + k`, and the wrapping screen coordinates of draw. -/

namespace Sys2Proof.Machine

/-- `zext_16(nnn)`: a byte address, not scaled (R63). -/
def zextAddr (nnn : Addr12) : Word := nnn.setWidth 16

/-- `zext_16` of a byte (R63). -/
def zextByte (b : Byte) : Word := b.setWidth 16

/-- The effective address `I + k`, a plain number, reduced neither mod 4096 nor mod 65536 (R40, R126). -/
def State.dataAddr (s : State) (k : Nat) : Nat := s.i.toNat + k

/-- Every address of the `count` bytes from `I` on exists; no byte at all is always in bounds (R46, R131). -/
def State.blockFits (s : State) (count : Nat) : Bool := count == 0 || decide (s.dataAddr (count - 1) ≤ 0xFFF)

/-- `max(I, 0x1000)`, the first offending address of a block that does not fit (R46). -/
def State.firstBadAddr (s : State) : Word := if s.i.toNat < 0x1000 then 0x1000 else s.i

/-- The bytes `MEM[I .. I+count-1]` (R46, R48). -/
def State.readBlock (s : State) (count : Nat) : List Byte := s.bytes (s.dataAddr 0) count

/-- The bytes written to `I`, `I+1`, … (R46, R48). -/
def State.writeBlock (s : State) (bytes : List Byte) : State := s.storeBytes (s.dataAddr 0) bytes

/-- The three decimal digits of a byte: hundreds, tens, ones (R123). -/
def bcdDigits (b : Byte) : List Byte :=
  [BitVec.ofNat 8 (b.toNat / 100), BitVec.ofNat 8 (b.toNat / 10 % 10), BitVec.ofNat 8 (b.toNat % 10)]

/-- `(x0 + col) mod 64` (R131). -/
def wrapX (x0 : Byte) (col : Nat) : Fin 64 := ⟨(x0.toNat + col) % 64, Nat.mod_lt _ (by decide)⟩

/-- `(y0 + row) mod 32` (R131). -/
def wrapY (y0 : Byte) (row : Nat) : Fin 32 := ⟨(y0.toNat + row) % 32, Nat.mod_lt _ (by decide)⟩

/-- The sprite bit at column `col` of a row byte, most-significant bit first: `(b >> (7 - col)) & 1` (R131). -/
def spriteBit (b : Byte) (col : Nat) : Bool := b.getLsbD (7 - col)

end Sys2Proof.Machine
end

