-- ==== Sys2Proof/Machine/Display.lean ====
section
/-! DEFINITION. clear-screen, draw and the sprite-draw engine (43_display.md R130 to R132). The frame-ready event is
`frameReadyIn` (log entry 9). -/

namespace Sys2Proof.Machine

/-- clear-screen (R130): VF is not written. -/
def execClearScreen (s : State) : Host.Outcome State Fault Refusal := .next (s.setFB FrameBuffer.clear).advance

/-- One pixel of a sprite: XOR the bit in, note a pixel that goes from set to unset (R131). -/
def plotBit (x0 y0 b : Byte) (row : Nat) (acc : FrameBuffer × Bool) (col : Nat) : FrameBuffer × Bool :=
  let on := spriteBit b col
  let old := acc.1.pixel (wrapY y0 row) (wrapX x0 col)
  (acc.1.setPixel (wrapY y0 row) (wrapX x0 col) (old ^^ on), acc.2 || (on && old))

/-- One sprite row: columns 0 to 7 (R131). -/
def plotRow (x0 y0 b : Byte) (row : Nat) (acc : FrameBuffer × Bool) : FrameBuffer × Bool :=
  (List.range 8).foldl (plotBit x0 y0 b row) acc

/-- The sprite rows from row number `row` on (R131). -/
def plotRows (x0 y0 : Byte) : Nat → List Byte → FrameBuffer × Bool → FrameBuffer × Bool
  | _, [], acc => acc
  | row, b :: rest, acc => plotRows x0 y0 (row + 1) rest (plotRow x0 y0 b row acc)

/-- draw (R131): rows `MEM[I .. I+n-1]` at column `V[x]`, row `V[y]`; VF is the collision, written last. -/
def execDraw (x y n : Nibble) (s : State) : Host.Outcome State Fault Refusal :=
  if s.blockFits n.toNat then
    let drawn := plotRows (s.reg x) (s.reg y) 0 (s.readBlock n.toNat) (s.fb, false)
    .next ((s.setFB drawn.1).setFlag (flagByte drawn.2)).advance
  else raiseIn (.draw x y n) .memoryOutOfBounds s.firstBadAddr s

/-- `frame_ready` is emitted by a draw that completes and by nothing else (R25, R132). -/
def frameReadyIn (i : Instr) (s : State) : Bool :=
  match i with
  | .draw _ _ n => s.blockFits n.toNat
  | _ => false

end Sys2Proof.Machine
end

