-- ==== Sys2Proof/Machine/Flow.lean ====
section
/-! DEFINITION. Control transfer (40_flow.md R80 to R89): the nine instructions that decide the next `PC`. -/

namespace Sys2Proof.Machine

/-- sys-noop (R80): an unconditional no-op, its field unused. -/
def execSysNoop (_nnn : Addr12) (s : State) : Host.Outcome State Fault Refusal := .next s.advance

/-- return (R81): to the instruction after the matching call; StackUnderflow when the stack is empty. -/
def execRet (s : State) : Host.Outcome State Fault Refusal :=
  match s.pop with
  | some (a, t) => .next (t.setPC (a + 2))
  | none => raiseIn .ret .stackUnderflow 0 s

/-- jump (R82). -/
def execJump (nnn : Addr12) (s : State) : Host.Outcome State Fault Refusal := .next (s.setPC (zextAddr nnn))

/-- call (R83): saves its own address; StackOverflow when `STACK_DEPTH` are saved. -/
def execCall (nnn : Addr12) (s : State) : Host.Outcome State Fault Refusal :=
  match s.push s.pc with
  | some t => .next (t.setPC (zextAddr nnn))
  | none => raiseIn (.call nnn) .stackOverflow 0 s

/-- skip-eq-byte (R84). -/
def execSkipEqByte (x : Nibble) (nn : Byte) (s : State) : Host.Outcome State Fault Refusal :=
  .next (s.skipIf (s.reg x == nn))

/-- skip-ne-byte (R85). -/
def execSkipNeByte (x : Nibble) (nn : Byte) (s : State) : Host.Outcome State Fault Refusal :=
  .next (s.skipIf (s.reg x != nn))

/-- skip-eq-reg (R86). -/
def execSkipEqReg (x y : Nibble) (s : State) : Host.Outcome State Fault Refusal :=
  .next (s.skipIf (s.reg x == s.reg y))

/-- skip-ne-reg (R87). -/
def execSkipNeReg (x y : Nibble) (s : State) : Host.Outcome State Fault Refusal :=
  .next (s.skipIf (s.reg x != s.reg y))

/-- jump-offset (R88): the addend is always `V[0]`, the 16-bit sum is not reduced. -/
def execJumpOffset (nnn : Addr12) (s : State) : Host.Outcome State Fault Refusal :=
  .next (s.setPC (zextAddr nnn + zextByte (s.reg 0)))

end Sys2Proof.Machine
end

