-- ==== Sys2Proof/Machine/IndexMemory.lean ====
section
/-! DEFINITION. The index register and memory transfers (42_index_memory.md R120 to R126). A transfer leaves `I` as it
was (R126); its bounds are checked for all of it before any effect (20_memory.md R46). -/

namespace Sys2Proof.Machine

/-- load-index (R120). -/
def execLoadIndex (nnn : Addr12) (s : State) : Host.Outcome State Fault Refusal := .next (s.setI (zextAddr nnn)).advance

/-- add-index (R121): wraps at 2^16, no flag. -/
def execAddIndex (x : Nibble) (s : State) : Host.Outcome State Fault Refusal :=
  .next (s.setI (s.i + zextByte (s.reg x))).advance

/-- font-address (R122): five times the whole byte. -/
def execFontAddress (x : Nibble) (s : State) : Host.Outcome State Fault Refusal :=
  .next (s.setI (5 * zextByte (s.reg x))).advance

/-- store-bcd (R123). -/
def execStoreBcd (x : Nibble) (s : State) : Host.Outcome State Fault Refusal :=
  if s.blockFits 3 then .next (s.writeBlock (bcdDigits (s.reg x))).advance
  else raiseIn (.storeBcd x) .memoryOutOfBounds s.firstBadAddr s

/-- store-block (R124): `V[0]` to `V[x]` inclusive. -/
def execStoreBlock (x : Nibble) (s : State) : Host.Outcome State Fault Refusal :=
  if s.blockFits (x.toNat + 1) then .next (s.writeBlock (s.regsUpTo x)).advance
  else raiseIn (.storeBlock x) .memoryOutOfBounds s.firstBadAddr s

/-- load-block (R125): into `V[0]` to `V[x]` inclusive. -/
def execLoadBlock (x : Nibble) (s : State) : Host.Outcome State Fault Refusal :=
  if s.blockFits (x.toNat + 1) then .next (s.setRegsFrom 0 (s.readBlock (x.toNat + 1))).advance
  else raiseIn (.loadBlock x) .memoryOutOfBounds s.firstBadAddr s

end Sys2Proof.Machine
end

