-- ==== Sys2Proof/Machine/KeysTimers.lean ====
section
/-! DEFINITION. Key and timer instructions (44_keys_timers.md R140 to R145). -/

namespace Sys2Proof.Machine

/-- skip-key-pressed (R140): KeyIndexOutOfRange when `V[x] > 15`; the flag is only read. -/
def execSkipKeyPressed (x : Nibble) (s : State) : Host.Outcome State Fault Refusal :=
  if (s.reg x).toNat > 15 then raiseIn (.skipKeyPressed x) .keyIndexOutOfRange (zextByte (s.reg x)) s
  else .next (s.skipIf (s.key ((s.reg x).setWidth 4)))

/-- skip-key-not-pressed (R141). -/
def execSkipKeyNotPressed (x : Nibble) (s : State) : Host.Outcome State Fault Refusal :=
  if (s.reg x).toNat > 15 then raiseIn (.skipKeyNotPressed x) .keyIndexOutOfRange (zextByte (s.reg x)) s
  else .next (s.skipIf (!s.key ((s.reg x).setWidth 4)))

/-- load-delay (R142). -/
def execLoadDelay (x : Nibble) (s : State) : Host.Outcome State Fault Refusal := .next (s.setReg x s.dt).advance

/-- await-key (R143): changes nothing while no key is set; else takes and consumes the lowest set key. -/
def execAwaitKey (x : Nibble) (s : State) : Host.Outcome State Fault Refusal :=
  match s.firstKey with
  | none => .next s
  | some k => .next ((s.setReg x (k.setWidth 8)).setKeyFlag k false).advance

/-- store-delay (R144). -/
def execStoreDelay (x : Nibble) (s : State) : Host.Outcome State Fault Refusal := .next (s.setDT (s.reg x)).advance

/-- load-sound-store, alias store-sound (R145). -/
def execLoadSoundStore (x : Nibble) (s : State) : Host.Outcome State Fault Refusal :=
  .next (s.setST (s.reg x)).advance

end Sys2Proof.Machine
end

