-- ==== Sys2Proof/Machine/Dispatch.lean ====
section
/-! DEFINITION. exec: one arm per constructor of Instr, in the order of spec/opcode_table.json. -/

namespace Sys2Proof.Machine

def exec (i : Instr) (s : State) : Host.Outcome State Fault Refusal :=
  match i with
  | .sysNoop nnn => Sys2Proof.Machine.execSysNoop nnn s
  | .clearScreen => Sys2Proof.Machine.execClearScreen s
  | .ret => Sys2Proof.Machine.execRet s
  | .jump nnn => Sys2Proof.Machine.execJump nnn s
  | .call nnn => Sys2Proof.Machine.execCall nnn s
  | .skipEqByte x nn => Sys2Proof.Machine.execSkipEqByte x nn s
  | .skipNeByte x nn => Sys2Proof.Machine.execSkipNeByte x nn s
  | .skipEqReg x y => Sys2Proof.Machine.execSkipEqReg x y s
  | .loadByte x nn => Sys2Proof.Machine.execLoadByte x nn s
  | .addByte x nn => Sys2Proof.Machine.execAddByte x nn s
  | .loadReg x y => Sys2Proof.Machine.execLoadReg x y s
  | .orReg x y => Sys2Proof.Machine.execOrReg x y s
  | .andReg x y => Sys2Proof.Machine.execAndReg x y s
  | .xorReg x y => Sys2Proof.Machine.execXorReg x y s
  | .addReg x y => Sys2Proof.Machine.execAddReg x y s
  | .sub x y => Sys2Proof.Machine.execSub x y s
  | .shiftRight x y => Sys2Proof.Machine.execShiftRight x y s
  | .subn x y => Sys2Proof.Machine.execSubn x y s
  | .shiftLeft x y => Sys2Proof.Machine.execShiftLeft x y s
  | .skipNeReg x y => Sys2Proof.Machine.execSkipNeReg x y s
  | .loadIndex nnn => Sys2Proof.Machine.execLoadIndex nnn s
  | .jumpOffset nnn => Sys2Proof.Machine.execJumpOffset nnn s
  | .random x nn => Sys2Proof.Machine.execRandom x nn s
  | .draw x y n => Sys2Proof.Machine.execDraw x y n s
  | .skipKeyPressed x => Sys2Proof.Machine.execSkipKeyPressed x s
  | .skipKeyNotPressed x => Sys2Proof.Machine.execSkipKeyNotPressed x s
  | .loadDelay x => Sys2Proof.Machine.execLoadDelay x s
  | .awaitKey x => Sys2Proof.Machine.execAwaitKey x s
  | .storeDelay x => Sys2Proof.Machine.execStoreDelay x s
  | .loadSoundStore x => Sys2Proof.Machine.execLoadSoundStore x s
  | .addIndex x => Sys2Proof.Machine.execAddIndex x s
  | .fontAddress x => Sys2Proof.Machine.execFontAddress x s
  | .storeBcd x => Sys2Proof.Machine.execStoreBcd x s
  | .storeBlock x => Sys2Proof.Machine.execStoreBlock x s
  | .loadBlock x => Sys2Proof.Machine.execLoadBlock x s

end Sys2Proof.Machine
end

