-- ==== Sys2Proof/Machine/Step.lean ====
section
/-! DEFINITION. One `step` transaction (30_encoding.md R60), its three outcomes being next, fault and refusal. -/

namespace Sys2Proof.Machine

/-- The `step` transaction (R60): at most one instruction. -/
def step (s : State) : Host.Outcome State Fault Refusal := cycle exec s

/-- `s` with the instruction whose bits are `w` stored where step fetches its next instruction (log entry 10). -/
def State.withFetchWord (s : State) (nbits w : Nat) : State := s.placeAtPC (tableWord nbits w)

end Sys2Proof.Machine
end

