-- ==== Sys2Proof/Machine/Transactions.lean ====
section
/-! DEFINITION. The host's side: the five transactions of 00_scope.md R6 in any order (60_exceptions.md R173), what they
answer, and the side-effect-free observations (60_exceptions.md R163 to R168, 10_state.md R29). -/

namespace Sys2Proof.Machine

/-! ## Transactions other than step -/

/-- A timer counts down and stays at 0 (R160). -/
def countDown (b : Byte) : Byte := if b = 0 then 0 else b - 1

/-- `tick`: both timers, independently; "no other state is touched" (R160). -/
def tick (s : State) : State := (s.setDT (countDown s.dt)).setST (countDown s.st)

/-- `set_key(k, v)`: the 4-bit port names no key that is not there (R162). -/
def setKey (k : Nibble) (on : Bool) (s : State) : State := s.setKeyFlag k on

/-- `load_status` (R29, R167). -/
inductive LoadStatus where
  | ok
  | romTooLarge
  deriving DecidableEq, Repr

/-- `load_status` as the port shows it (R29). -/
def LoadStatus.toBit : LoadStatus → BitVec 1
  | .ok => 0
  | .romTooLarge => 1

/-- `load_program(bytes)`: refused whole above 3584 bytes, else the bytes go to 0x200 on and nothing else is written (R166). -/
def loadProgram (bytes : List Byte) (s : State) : State × LoadStatus :=
  if bytes.length > Config.romMax then (s, .romTooLarge)
  else (s.storeBytes Config.loadBase bytes, .ok)

/-- `reset` at any transaction boundary (R180); the parameters are the machine's and stay. The oracle of random bytes is no state of the machine: the counter goes
on, so that reset does not bring old bytes back (log entry 1). -/
def resetCore (s : State) : State := { State.resetWith s.config with draws := s.draws }

/-! ## The machine of 00_scope.md R6 -/

/-- The five transactions (R6). `step` has no argument: its `rnd` is the free byte of log entry 1. -/
inductive Transaction where
  | reset
  | loadProgram (bytes : List Byte)
  | step
  | tick
  | setKey (k : Nibble) (on : Bool)
  deriving DecidableEq, Repr

/-- The state after one transaction. -/
def transact (t : Transaction) (s : State) : Host.Outcome State Fault Refusal :=
  match t with
  | .reset => .next (resetCore s)
  | .loadProgram bytes => .next (loadProgram bytes s).1
  | .step => step s
  | .tick => .next (tick s)
  | .setKey k on => .next (setKey k on s)

/-- A finite host behaviour: transactions one after the other (R173). -/
def runTransactions : List Transaction → State → Host.Outcome State Fault Refusal
  | [], s => .next s
  | t :: rest, s =>
    match transact t s with
    | .next u => runTransactions rest u
    | .fault r => .fault r
    | .refused r => .refused r

/-- The step from `s` emits `frame_ready`: it executes a draw to completion (R25, R132). -/
def frameReady (s : State) : Bool :=
  match s.pendingInstr with
  | some i => frameReadyIn i s
  | none => false

/-- What a transaction tells the host besides the new state: the load status and the frame-ready event. -/
structure Response where
  loadStatus : Option LoadStatus
  frameReady : Bool
  deriving DecidableEq, Repr

/-- The answer to a transaction begun in `s`. -/
def respond (t : Transaction) (s : State) : Response :=
  match t with
  | .loadProgram bytes => { loadStatus := some (loadProgram bytes s).2, frameReady := false }
  | .step => { loadStatus := none, frameReady := frameReady s }
  | .reset | .tick | .setKey _ _ => { loadStatus := none, frameReady := false }

/-! ## Observations -/

/-- `frame()`: the pixels as they are (R164). -/
def frame (s : State) : FrameBuffer := s.fb

/-- `get_keys()`: the 16 flags as they are (R163). -/
def getKeys (s : State) : Vector Bool 16 := s.keys

/-- A list of bits as a number, its first bit the least significant. -/
def bitsToNat : List Bool → Nat
  | [] => 0
  | b :: rest => b.toNat + 2 * bitsToNat rest

/-- Port `fb`: bit `64*y + x` is `FB[y][x]` (R29). -/
def fbPort (s : State) : BitVec 2048 := BitVec.ofNat 2048 (bitsToNat (s.fb.toList.flatMap fun line => line.toList))

/-- Port `keys`: bit `k` is `KEY[k]` (R29). -/
def keysPort (s : State) : BitVec 16 := BitVec.ofNat 16 (bitsToNat s.keys.toList)

/-- Ports `dt`, `st` (R29, R165). -/
def timerPorts (s : State) : Byte × Byte := (s.dt, s.st)

/-- Ports `fault_code`, `fault_pc`, `fault_opcode`, `fault_info` (R22, R29). -/
def faultPorts (s : State) : BitVec 3 × Word × Word × Word :=
  (s.fault.code.toBits, s.fault.pc, s.fault.opcode, s.fault.info)

/-- The registers the debug view shows (R168): `PC`, `I`, `SP` as the 5-bit counter, the `V` file, the stack slots. -/
def debugRegisters (s : State) : Word × Word × BitVec 5 × Vector Byte 16 × List Word :=
  (s.pc, s.i, BitVec.ofNat 5 s.sp.val, s.v, s.stack.toList.take s.config.stackDepth.val)

/-- The memory range the debug view shows, as far as it exists (R52, R168). -/
def debugMemory (a count : Nat) (s : State) : List Byte := s.bytes a (min count (Config.memSize - a))

end Sys2Proof.Machine
end

