-- ==== Sys2Proof/Safety.lean ====
section
/-! DEFINITION. What claims about a run are stated in: a running core, the invariants, the end of a run. -/

namespace Sys2Proof.Safety

open Sys2Proof.Machine

/-- "A model takes `FAULT.code = 0` as a premise of every claim about a running program" (R158). -/
def Running (s : State) : Prop := s.fault.code = .none

/-- Memory is in its canonical form (log entry 13). -/
def MemoryCanonical (s : State) : Prop := Memory.wf s.config.glyphRom s.mem = true

/-- What a run from reset keeps of `PC` and the stack: `PC` never passes the largest jump-offset target, `SP` never
passes `STACK_DEPTH` and every live return address is a fetched one (R15, R17, R81); the places from `STACK_DEPTH` on,
which are no slots, stay 0 (log entry 17). -/
structure FlowBounded (s : State) : Prop where
  pcBound : s.pc.toNat ≤ 0x10FE
  depthBound : s.sp.val ≤ s.config.stackDepth.val
  stackBound : ∀ j : Fin 31, j.val < s.sp.val → s.stack[j.val].toNat ≤ 0xFFE
  noSlotBeyond : ∀ j : Fin 31, s.config.stackDepth.val ≤ j.val → s.stack[j.val] = 0

/-- What FAULT says of the state the fault left, for each code (R22, R151, R157). `PC` stays at the faulting
instruction (R15) and the registers the cause rests on stay readable; only the host can move timers, keys and memory. -/
def FaultConsistent (s : State) : Prop :=
  match s.fault.code with
  | .none => s.fault.pc = 0 ∧ s.fault.opcode = 0 ∧ s.fault.info = 0
  | .unknownOpcode => s.fault.pc = s.pc ∧ s.fault.info = 0 ∧ ∃ e, decode s.fault.opcode = .rejected e
  | .stackOverflow =>
    s.fault.pc = s.pc ∧ s.fault.info = 0 ∧ s.sp.val = s.config.stackDepth.val ∧ ∃ nnn, s.fault.opcode = encode (.call nnn)
  | .stackUnderflow => s.fault.pc = s.pc ∧ s.fault.info = 0 ∧ s.sp.val = 0 ∧ s.fault.opcode = encode .ret
  | .fetchOutOfBounds => s.fault.pc = s.pc ∧ s.fault.info = 0 ∧ s.fault.opcode = 0 ∧ s.pc.toNat > 0xFFE
  | .memoryOutOfBounds => s.fault.pc = s.pc ∧ s.fault.info.toNat = max s.i.toNat 0x1000
  | .keyIndexOutOfRange => s.fault.pc = s.pc ∧ ∃ x, s.fault.info = zextByte (s.reg x) ∧ (s.reg x).toNat > 15
  | .invalidDecode => False

/-- The invariant of the machine: every transaction keeps it and reset has it. -/
structure Inv (s : State) : Prop where
  memory : MemoryCanonical s
  flow : FlowBounded s
  fault : FaultConsistent s

/-! ## Frames -/

/-- The parts of the state a frame speaks of. -/
inductive Part where
  | v | i | pc | sp | stack | dt | st | keys | fb | mem | fault | draws | config
  deriving DecidableEq, Repr

/-- A part reads the same before and after, read through the model's own reads (every register, every byte of memory,
every key, every pixel). -/
def Part.Same (p : Part) (s t : State) : Prop :=
  match p with
  | .v => ∀ r, t.reg r = s.reg r
  | .i => t.i = s.i
  | .pc => t.pc = s.pc
  | .sp => t.sp = s.sp
  | .stack => ∀ j : Fin 31, t.stack[j.val] = s.stack[j.val]
  | .dt => t.dt = s.dt
  | .st => t.st = s.st
  | .keys => ∀ k, t.key k = s.key k
  | .fb => ∀ y x, t.fb.pixel y x = s.fb.pixel y x
  | .mem => ∀ a, t.byte a = s.byte a
  | .fault => t.fault = s.fault
  | .draws => t.draws = s.draws
  | .config => t.config = s.config

/-- Only the listed parts may differ: "state not named in a rule's pseudocode is unchanged" (R8). -/
def OnlyChanges (parts : List Part) (s t : State) : Prop := ∀ p, p ∉ parts → p.Same s t

/-- Every byte of memory outside the `count` bytes from `a` on reads as before. -/
def MemoryKeptOutside (a count : Nat) (s t : State) : Prop :=
  ∀ c, ¬(a ≤ c ∧ c < a + count) → t.byte c = s.byte c

/-- The step of `i` raises: a next state in which nothing but the fault record differs (R150). -/
def Traps (i : Instr) (s : State) (code : FaultCode) (info : Nat) : Prop :=
  ∃ t, exec i s = .next t ∧ OnlyChanges [.fault] s t ∧ t.mem = s.mem ∧ t.fault.code = code ∧ t.fault.pc = s.pc ∧
    t.fault.opcode = encode i ∧ t.fault.info.toNat = info

/-! ## Tables of the spec over all instructions -/

/-- The "reads" column of R11. -/
def readsReg : Instr → Nibble → Bool
  | .skipEqByte x _, r | .skipNeByte x _, r | .addByte x _, r | .shiftRight x _, r | .shiftLeft x _, r
  | .skipKeyPressed x, r | .skipKeyNotPressed x, r | .storeDelay x, r | .loadSoundStore x, r | .addIndex x, r
  | .fontAddress x, r | .storeBcd x, r => r == x
  | .skipEqReg x y, r | .skipNeReg x y, r | .orReg x y, r | .andReg x y, r | .xorReg x y, r | .addReg x y, r
  | .sub x y, r | .subn x y, r | .draw x y _, r => r == x || r == y
  | .loadReg _ y, r => r == y
  | .jumpOffset _, r => r == 0
  | .storeBlock x, r => decide (r ≤ x)
  | .sysNoop _, _ | .clearScreen, _ | .ret, _ | .jump _, _ | .call _, _ | .loadByte _ _, _ | .loadIndex _, _
  | .random _ _, _ | .loadDelay _, _ | .awaitKey _, _ | .loadBlock _, _ => false

/-- The "writes" column of R11. -/
def writesReg : Instr → Nibble → Bool
  | .loadByte x _, r | .addByte x _, r | .loadReg x _, r | .orReg x _, r | .andReg x _, r | .xorReg x _, r
  | .random x _, r | .loadDelay x, r | .awaitKey x, r => r == x
  | .addReg x _, r | .sub x _, r | .subn x _, r | .shiftRight x _, r | .shiftLeft x _, r => r == x || r == vf
  | .draw _ _ _, r => r == vf
  | .loadBlock x, r => decide (r ≤ x)
  | .sysNoop _, _ | .clearScreen, _ | .ret, _ | .jump _, _ | .call _, _ | .skipEqByte _ _, _ | .skipNeByte _ _, _
  | .skipEqReg _ _, _ | .skipNeReg _ _, _ | .loadIndex _, _ | .jumpOffset _, _ | .skipKeyPressed _, _
  | .skipKeyNotPressed _, _ | .storeDelay _, _ | .loadSoundStore _, _ | .addIndex _, _ | .fontAddress _, _
  | .storeBcd _, _ | .storeBlock _, _ => false

/-- The parts an instruction may change, its own fault included (R11, R15 to R21, R151); `draws` is the model's own. -/
def changedParts : Instr → List Part
  | .sysNoop _ | .jump _ | .jumpOffset _ | .skipEqByte _ _ | .skipNeByte _ _ | .skipEqReg _ _ | .skipNeReg _ _ => [.pc]
  | .clearScreen => [.fb, .pc]
  | .ret => [.sp, .pc, .fault]
  | .call _ => [.stack, .sp, .pc, .fault]
  | .loadByte _ _ | .addByte _ _ | .loadReg _ _ | .orReg _ _ | .andReg _ _ | .xorReg _ _ | .addReg _ _ | .sub _ _
  | .shiftRight _ _ | .subn _ _ | .shiftLeft _ _ | .loadDelay _ => [.v, .pc]
  | .random _ _ => [.v, .pc, .draws]
  | .loadIndex _ | .addIndex _ | .fontAddress _ => [.i, .pc]
  | .draw _ _ _ => [.fb, .v, .pc, .fault]
  | .skipKeyPressed _ | .skipKeyNotPressed _ => [.pc, .fault]
  | .awaitKey _ => [.v, .keys, .pc]
  | .storeDelay _ => [.dt, .pc]
  | .loadSoundStore _ => [.st, .pc]
  | .storeBcd _ | .storeBlock _ => [.mem, .pc, .fault]
  | .loadBlock _ => [.v, .pc, .fault]

/-- The one execute-stage fault an instruction can raise, and when (R151, R159). -/
def ExecuteFault (i : Instr) (s : State) : Prop :=
  match i with
  | .call _ => s.config.stackDepth.val ≤ s.sp.val
  | .ret => s.sp.val = 0
  | .draw _ _ n => 0 < n.toNat ∧ s.i.toNat + n.toNat - 1 > 0xFFF
  | .storeBcd _ => s.i.toNat + 2 > 0xFFF
  | .storeBlock x | .loadBlock x => s.i.toNat + x.toNat > 0xFFF
  | .skipKeyPressed x | .skipKeyNotPressed x => (s.reg x).toNat > 15
  | .sysNoop _ | .clearScreen | .jump _ | .skipEqByte _ _ | .skipNeByte _ _ | .skipEqReg _ _ | .loadByte _ _
  | .addByte _ _ | .loadReg _ _ | .orReg _ _ | .andReg _ _ | .xorReg _ _ | .addReg _ _ | .sub _ _ | .shiftRight _ _
  | .subn _ _ | .shiftLeft _ _ | .skipNeReg _ _ | .loadIndex _ | .jumpOffset _ | .random _ _ | .loadDelay _
  | .awaitKey _ | .storeDelay _ | .loadSoundStore _ | .addIndex _ | .fontAddress _ => False

/-- The pixel `(y, x)` lies under a 1 bit of the sprite a draw with these operands reads: row `row` is the byte at
`I + row`, its column 0 the most significant bit, each pixel wrapped on its own (R131, R133: the set `S`). -/
def SpriteOver (s : State) (rx ry n : Nibble) (y : Fin 32) (x : Fin 64) : Prop :=
  ∃ row col, row < n.toNat ∧ col < 8 ∧ (s.byte (s.i.toNat + row)).toNat / 2 ^ (7 - col) % 2 = 1 ∧
    x.val = ((s.reg rx).toNat + col) % 64 ∧ y.val = ((s.reg ry).toNat + row) % 32

/-- A draw of `n` rows reads no address above 0xFFF (R46, R131). -/
def SpriteInMemory (s : State) (n : Nibble) : Prop := n.toNat = 0 ∨ s.i.toNat + n.toNat - 1 ≤ 0xFFF

/-! ## Stores -/

/-- The bytes an instruction stores from `I` on when it completes (R123, R124). -/
def storedBytes (i : Instr) (s : State) : List Byte :=
  match i with
  | .storeBcd x => bcdDigits (s.reg x)
  | .storeBlock x => s.regsUpTo x
  | .sysNoop _ | .clearScreen | .ret | .jump _ | .call _ | .skipEqByte _ _ | .skipNeByte _ _ | .skipEqReg _ _
  | .loadByte _ _ | .addByte _ _ | .loadReg _ _ | .orReg _ _ | .andReg _ _ | .xorReg _ _ | .addReg _ _ | .sub _ _
  | .shiftRight _ _ | .subn _ _ | .shiftLeft _ _ | .skipNeReg _ _ | .loadIndex _ | .jumpOffset _ | .random _ _
  | .draw _ _ _ | .skipKeyPressed _ | .skipKeyNotPressed _ | .loadDelay _ | .awaitKey _ | .storeDelay _
  | .loadSoundStore _ | .addIndex _ | .fontAddress _ | .loadBlock _ => []

/-- The byte at `a` once the instruction has stored: its own byte inside the block, the old one outside. -/
def byteAfterStore (i : Instr) (s : State) (a : Nat) : Byte :=
  if s.dataAddr 0 ≤ a ∧ a < s.dataAddr 0 + (storedBytes i s).length then (storedBytes i s).getD (a - s.dataAddr 0) 0
  else s.byte a

/-- The instruction word at `a` once the instruction has stored, high byte first (R42). -/
def wordAfterStore (i : Instr) (s : State) (a : Nat) : Word :=
  wordOfBytes (byteAfterStore i s a) (byteAfterStore i s (a + 1))

/-! ## Runs -/

/-- Reachable by the host's transactions from reset, at some values of the parameters (R5, R6, R173). -/
def Reachable (s : State) : Prop := ∃ c ts, runTransactions ts (State.resetWith c) = .next s

/-- The suggested `END_OF_RUN` (R185, log entry 14): a running core whose next instruction is a jump to itself. -/
def AtJumpToSelf (s : State) : Prop :=
  Running s ∧ ∃ nnn, s.pendingInstr = some (.jump nnn) ∧ zextAddr nnn = s.pc

end Sys2Proof.Safety
end

