-- ==== Sys2Proof/Certificates/Slice0/Obligations.lean ====
section
/-! DEFINITION. The statements for the provers. Each docstring names the rules of spec/ it formalises and the spec's own
decisions (92_eei_decisions.md D<n>) or log entries it rests on. `A` of the rules is `s.pc`; `dataAddr` is the effective
address the meanings use. -/

open Sys2Proof Sys2Proof.Machine Sys2Proof.Safety

/-! ## Reset, invariants, the step cycle -/

/-- R180, R27: what the `reset` transaction leaves, from any state, at any value of the parameters. The zeroes are
decision D4 (log entry 4); that the model's counter of random bytes goes on through `reset` is log entry 1, that the
parameters stay is log entry 19. -/
def Obligations.ResetGivesTheListedValues : Prop :=
  ∀ s : State, ∃ t, transact .reset s = .next t ∧
    t.pc = 0x200 ∧ (∀ r, t.reg r = 0) ∧ t.i = 0 ∧ t.sp.val = 0 ∧ (∀ j : Fin 31, t.stack[j.val] = 0) ∧
    t.dt = 0 ∧ t.st = 0 ∧ (∀ k, t.key k = false) ∧ (∀ y x, t.fb.pixel y x = false) ∧
    faultPorts t = (0, 0, 0, 0) ∧
    (∀ a : Fin 80, t.byte a.val = s.config.glyphRom[a.val]) ∧ (∀ a, 0x50 ≤ a → a < 0x1000 → t.byte a = 0) ∧
    t.config = s.config ∧ t = { State.resetWith s.config with draws := s.draws }

/-- The state after reset meets the invariant of the machine, at the default parameters and at every other. -/
def Obligations.ResetMeetsInvariant : Prop := Inv State.reset ∧ ∀ c : Config, Inv (State.resetWith c)

/-- Every step from every state that meets the invariant gives a state that meets it: memory stays canonical; `PC`
stays at most 0x10FE, `SP` at most `STACK_DEPTH`, live return addresses at most 0xFFE (R15, R17, R81: no sum ever wraps); the fault record agrees
with the state the fault left (R22, R151, R157). The fault part rests on decisions D17, D18. -/
def Obligations.StepKeepsInvariant : Prop :=
  ∀ s t : State, Inv s → step s = .next t → Inv t

/-- The host's four other transactions keep the invariant, on a halted core too (R157, R160, R162, R166, R180). That a
fault changes nothing but its record is decision D17. -/
def Obligations.HostTransactionsKeepInvariant : Prop :=
  ∀ (tr : Transaction) (s t : State), tr ≠ .step → Inv s → transact tr s = .next t → Inv t

/-- Whatever transactions the host issues from reset on, in whatever order (R6, R173) and at whatever parameters (R5), the
invariant holds. That a fault changes nothing but its record is decision D17. -/
def Obligations.ReachableStatesMeetInvariant : Prop := ∀ s : State, Reachable s → Inv s

/-- No transaction ends the machine: decode is total (R65), InvalidDecode is never raised (R69), and every fault halts
the core with the record written (R157). That this is told as a next state, the interface's fault and refusal being never
answered, is the model's choice (log entry 7). -/
def Obligations.EveryTransactionGivesANextState : Prop :=
  (∀ (i : Instr) (s : State), ∃ t, exec i s = .next t) ∧ (∀ s : State, ∃ t, step s = .next t) ∧
    ∀ (ts : List Transaction) (s : State), ∃ t, runTransactions ts s = .next t

/-- R60, clause by clause: a halted core does nothing; a fetch above 0xFFE raises FetchOutOfBounds with opcode 0; a word
that decodes to nothing raises UnknownOpcode; else the step is exec of the decoded instruction at that state, with
nothing around it. The word is `MEM[PC] * 256 + MEM[PC+1]` (R42). The bound 0xFFE is R43 by decision D7, the fault record
R150 and R151 by decisions D17 and D18, the lasting halt R157 by decision D17. -/
def Obligations.StepRunsDecodedInstruction : Prop :=
  (∀ s : State, ¬Running s → step s = .next s) ∧
  (∀ s : State, Running s → s.pc.toNat > 0xFFE → step s = .next (s.raise .fetchOutOfBounds 0 0)) ∧
  (∀ (s : State) (op : Word) (e : DecodeError), Running s → s.pc.toNat ≤ 0xFFE →
    op.toNat = (s.byte s.pc.toNat).toNat * 256 + (s.byte (s.pc.toNat + 1)).toNat →
    decode op = .rejected e → step s = .next (s.raise .unknownOpcode op 0)) ∧
  (∀ (s : State) (op : Word) (i : Instr), Running s → s.pc.toNat ≤ 0xFFE →
    op.toNat = (s.byte s.pc.toNat).toNat * 256 + (s.byte (s.pc.toNat + 1)).toNat →
    decode op = .instr i → step s = exec i s)

/-- R157: on a halted core, transactions other than reset leave everything but the timers, the keys and memory; the
record keeps describing the first fault. Decision D17. -/
def Obligations.HaltedCoreOnlyTakesHostData : Prop :=
  ∀ (ts : List Transaction) (s : State), ¬Running s → Transaction.reset ∉ ts →
    ∃ t, runTransactions ts s = .next t ∧ OnlyChanges [.dt, .st, .keys, .mem] s t

/-- R150: a step that raises changes nothing but the fault record, which names the `PC` of the step and the fetched word
(0 if the fetch itself faulted); `PC` stays there and no `frame_ready` is emitted. R69, R151: its code is never
InvalidDecode, which is reserved and raised by nothing (decision D27). Decision D17; that no frame_ready is told by
`frameReady` is log entry 9. -/
def Obligations.FaultsArePrecise : Prop :=
  ∀ s t : State, Running s → step s = .next t → ¬Running t →
    t = { s with fault := t.fault } ∧ t.fault.pc = s.pc ∧ t.fault.code ≠ .invalidDecode ∧ frameReady s = false ∧
    (s.pc.toNat > 0xFFE → t.fault.opcode = 0) ∧
    (s.pc.toNat ≤ 0xFFE → t.fault.opcode.toNat = (s.byte s.pc.toNat).toNat * 256 + (s.byte (s.pc.toNat + 1)).toNat)

/-- R159, R151: a step of a running core stays running exactly when it fetches a word that decodes to an instruction
whose one execute-stage fault does not arise. The conditions of the faults are decisions D5, D7, D8, D13, D16. -/
def Obligations.StepFaultsExactlyOnListedCauses : Prop :=
  ∀ s t : State, Running s → step s = .next t →
    (Running t ↔ ∃ i, s.pendingInstr = some i ∧ ¬ExecuteFault i s)

/-! ## Encoding -/

/-- Decoding the word of a well-formed instruction gives it back, with every operand at every value, read from its two
bytes as they lie in memory (R61 to R65). The bit patterns are decision D1 (log entry 2). -/
def Obligations.DecodeUndoesEncode : Prop :=
  ∀ (i : Instr) (rest : List Byte), i.WellFormed →
    decode (encode i) = .instr i ∧ decodeBytes (encodeBytes i ++ rest) = (.instr i, rest)

/-- Each legal word has one instruction and each instruction one word: a decoded instruction is well formed and its word
is the one decoded. For the shifts and sys-noop this is so only because the model keeps their don't-care fields (R68) in
the instruction, which is the model's choice (log entry 12). The bit patterns are decision D1 (log entry 2). -/
def Obligations.EncodeUndoesDecode : Prop :=
  ∀ (op : Word) (i : Instr), decode op = .instr i → i.WellFormed ∧ encode i = op

/-- R67: the rejected words are exactly the five listed kinds, and every rejection carries the raw word. The
strictness of the sub-opcode match is decision D16. The bit patterns are decision D1 (log entry 2). -/
def Obligations.RejectedWordsAreTheListedOnes : Prop :=
  ∀ op : Word,
    (decode op = .rejected (.unknownOpcode op) ∨ ∃ i, decode op = .instr i) ∧
    (decode op = .rejected (.unknownOpcode op) ↔
      (op.toNat / 4096 = 0x5 ∧ op.toNat % 16 ≠ 0) ∨
      (op.toNat / 4096 = 0x8 ∧ op.toNat % 16 ∈ [0x8, 0x9, 0xA, 0xB, 0xC, 0xD, 0xF]) ∨
      (op.toNat / 4096 = 0x9 ∧ op.toNat % 16 ≠ 0) ∨
      (op.toNat / 4096 = 0xE ∧ op.toNat % 256 ∉ [0x9E, 0xA1]) ∨
      (op.toNat / 4096 = 0xF ∧ op.toNat % 256 ∉ [0x07, 0x0A, 0x15, 0x18, 0x1E, 0x29, 0x33, 0x55, 0x65]))

/-- R64, R65: a decoded word selects its instruction's row; a word that selects a row of mask below 0xFFFF decodes to
an instruction of that row, but for the two words of clear-screen and return; so no two other rows overlap. The bit
patterns are decision D1 (log entry 2). -/
def Obligations.WordsSelectTheirRow : Prop :=
  (∀ (op : Word) (i : Instr), decode op = .instr i → op &&& rowMask i = rowMatch i) ∧
  (∀ (op : Word) (j : Instr), op &&& rowMask j = rowMatch j →
    ∃ i, decode op = .instr i ∧ (op = 0x00E0 ∨ op = 0x00EE ∨ (rowMask i = rowMask j ∧ rowMatch i = rowMatch j)))

/-- The words of the spec's own examples decode to the instructions they stand for, one or more of each family (the
"Example" of R80 to R145 and the vectors of 95_test_vectors.md). Log entry 2: the bit patterns are decision D1. -/
def Obligations.SpecExampleWordsDecode : Prop :=
  decode 0x0234 = .instr (.sysNoop 0x234) ∧ decode 0x00E0 = .instr .clearScreen ∧ decode 0x00EE = .instr .ret ∧
  decode 0x1200 = .instr (.jump 0x200) ∧ decode 0x2208 = .instr (.call 0x208) ∧
  decode 0x332A = .instr (.skipEqByte 3 0x2A) ∧ decode 0x432A = .instr (.skipNeByte 3 0x2A) ∧
  decode 0x7102 = .instr (.addByte 1 2) ∧ decode 0x5120 = .instr (.skipEqReg 1 2) ∧
  decode 0x5121 = .rejected (.unknownOpcode 0x5121) ∧ decode 0x6A07 = .instr (.loadByte 0xA 7) ∧
  decode 0x8127 = .instr (.subn 1 2) ∧ decode 0x81F6 = .instr (.shiftRight 1 0xF) ∧
  decode 0x9120 = .instr (.skipNeReg 1 2) ∧ decode 0xA300 = .instr (.loadIndex 0x300) ∧
  decode 0xB300 = .instr (.jumpOffset 0x300) ∧ decode 0xC30F = .instr (.random 3 0x0F) ∧
  decode 0xD015 = .instr (.draw 0 1 5) ∧ decode 0xE49E = .instr (.skipKeyPressed 4) ∧
  decode 0xF033 = .instr (.storeBcd 0) ∧ decode 0xF265 = .instr (.loadBlock 2)

/-! ## Control transfer (40_flow.md) -/

/-- R80. The bit patterns are decision D1 (log entry 2). -/
def Obligations.SysNoopOnlyAdvances : Prop :=
  ∀ (nnn : Addr12) (s : State),
    (nnn ≠ 0x0E0 → nnn ≠ 0x0EE → decode (0x0#4 ++ nnn) = .instr (.sysNoop nnn)) ∧
    ∃ t, exec (.sysNoop nnn) s = .next t ∧ t.pc = s.pc + 2 ∧ OnlyChanges [.pc] s t

/-- R82: bits 15 to 12 of the new `PC` are 0. -/
def Obligations.JumpSetsPC : Prop :=
  ∀ (nnn : Addr12) (s : State),
    decode (0x1#4 ++ nnn) = .instr (.jump nnn) ∧
    ∃ t, exec (.jump nnn) s = .next t ∧ t.pc.toNat = nnn.toNat ∧ OnlyChanges [.pc] s t

/-- R88: the addend is `V[0]` whatever the high nibble of `nnn`; that the sum is not reduced mod 4096 is decision D10.
The bit patterns are decision D1 (log entry 2). -/
def Obligations.JumpOffsetAddsV0 : Prop :=
  ∀ (nnn : Addr12) (s : State),
    decode (0xB#4 ++ nnn) = .instr (.jumpOffset nnn) ∧
    ∃ t, exec (.jumpOffset nnn) s = .next t ∧ t.pc.toNat = nnn.toNat + (s.reg 0).toNat ∧ OnlyChanges [.pc] s t

/-- R83: call with room saves its own address in slot `SP` and goes to `nnn`. That `A` and not `A + 2` is saved is
decision D6; the depth is the parameter `STACK_DEPTH` (decision D5, log entry 19). The bit patterns are decision D1 (log
entry 2). -/
def Obligations.CallSavesItsAddress : Prop :=
  ∀ (nnn : Addr12) (s : State), s.sp.val < s.config.stackDepth.val →
    decode (0x2#4 ++ nnn) = .instr (.call nnn) ∧
    ∃ t, exec (.call nnn) s = .next t ∧ t.pc.toNat = nnn.toNat ∧ t.sp.val = s.sp.val + 1 ∧
      (∀ j : Fin 31, t.stack[j.val] = if j.val = s.sp.val then s.pc else s.stack[j.val]) ∧
      OnlyChanges [.stack, .sp, .pc] s t

/-- R83, R150, R151: call with `STACK_DEPTH` addresses saved, 16 by default, raises StackOverflow; R17: a push is "legal
only when `SP < STACK_DEPTH`". Decision D5; that a fault changes nothing but its record is decision D17; the word recorded
is `encode` of the instruction by log entry 6. -/
def Obligations.CallOverflowsWhenFull : Prop :=
  ∀ (nnn : Addr12) (s : State), s.config.stackDepth.val ≤ s.sp.val → Traps (.call nnn) s .stackOverflow 0

/-- R81: return with a live entry goes to the saved address plus 2 and keeps the slot's content. Decision D6. The bit
patterns are decision D1 (log entry 2). -/
def Obligations.ReturnGoesPastTheCall : Prop :=
  ∀ s : State, 0 < s.sp.val →
    decode 0x00EE = .instr .ret ∧
    ∃ t, exec .ret s = .next t ∧ t.sp.val = s.sp.val - 1 ∧
      (∀ j : Fin 31, j.val + 1 = s.sp.val → t.pc.toNat = (s.stack[j.val].toNat + 2) % 65536) ∧
      OnlyChanges [.sp, .pc] s t

/-- R81, R150, R151: return with an empty stack raises StackUnderflow. That a fault changes nothing but its record is
decision D17; the word recorded is `encode` of the instruction by log entry 6. -/
def Obligations.ReturnUnderflowsWhenEmpty : Prop :=
  ∀ s : State, s.sp.val = 0 → Traps .ret s .stackUnderflow 0

/-- The property E6 of 95_test_vectors.md (R81, R83): after a call, whatever the subroutine does, a return that finds
the stack as the call left it goes to the instruction after the call, and the callers' entries are as before. -/
def Obligations.ReturnResumesAfterItsCall : Prop :=
  ∀ (nnn : Addr12) (s t u : State), s.sp.val < s.config.stackDepth.val → exec (.call nnn) s = .next t →
    u.sp = t.sp → (∀ j : Fin 31, j.val < t.sp.val → u.stack[j.val] = t.stack[j.val]) →
    ∃ w, exec .ret u = .next w ∧ w.pc = s.pc + 2 ∧ w.sp = s.sp ∧
      ∀ j : Fin 31, j.val < s.sp.val → w.stack[j.val] = s.stack[j.val]

/-- R84, R85: the skips on a register and a byte. The bit patterns are decision D1 (log entry 2). -/
def Obligations.ByteSkipsCompare : Prop :=
  ∀ (x : Nibble) (nn : Byte) (s : State),
    decode (0x3#4 ++ x ++ nn) = .instr (.skipEqByte x nn) ∧
    decode (0x4#4 ++ x ++ nn) = .instr (.skipNeByte x nn) ∧
    (∃ t, exec (.skipEqByte x nn) s = .next t ∧
      t.pc = (if (s.reg x).toNat = nn.toNat then s.pc + 4 else s.pc + 2) ∧ OnlyChanges [.pc] s t) ∧
    (∃ t, exec (.skipNeByte x nn) s = .next t ∧
      t.pc = (if (s.reg x).toNat = nn.toNat then s.pc + 2 else s.pc + 4) ∧ OnlyChanges [.pc] s t)

/-- R86, R87: the skips on two registers; a sub-opcode nibble other than 0 is no instruction. The bit patterns are
decision D1 (log entry 2). -/
def Obligations.RegisterSkipsCompare : Prop :=
  ∀ (x y : Nibble) (s : State),
    decode (0x5#4 ++ x ++ y ++ 0x0#4) = .instr (.skipEqReg x y) ∧
    decode (0x9#4 ++ x ++ y ++ 0x0#4) = .instr (.skipNeReg x y) ∧
    (∀ n : Nibble, n ≠ 0 →
      decode (0x5#4 ++ x ++ y ++ n) = .rejected (.unknownOpcode (0x5#4 ++ x ++ y ++ n)) ∧
      decode (0x9#4 ++ x ++ y ++ n) = .rejected (.unknownOpcode (0x9#4 ++ x ++ y ++ n))) ∧
    (∃ t, exec (.skipEqReg x y) s = .next t ∧
      t.pc = (if (s.reg x).toNat = (s.reg y).toNat then s.pc + 4 else s.pc + 2) ∧ OnlyChanges [.pc] s t) ∧
    (∃ t, exec (.skipNeReg x y) s = .next t ∧
      t.pc = (if (s.reg x).toNat = (s.reg y).toNat then s.pc + 2 else s.pc + 4) ∧ OnlyChanges [.pc] s t)

/-! ## Registers (41_alu.md) -/

/-- R100, also with `x = 15`. The bit patterns are decision D1 (log entry 2). -/
def Obligations.LoadByteSetsRegister : Prop :=
  ∀ (x : Nibble) (nn : Byte) (s : State),
    decode (0x6#4 ++ x ++ nn) = .instr (.loadByte x nn) ∧
    ∃ t, exec (.loadByte x nn) s = .next t ∧ t.reg x = nn ∧ (∀ r, r ≠ x → t.reg r = s.reg r) ∧
      t.pc = s.pc + 2 ∧ OnlyChanges [.v, .pc] s t

/-- R101: wraps mod 256, VF unchanged unless it is the destination. The bit patterns are decision D1 (log entry 2). -/
def Obligations.AddByteWrapsWithoutFlag : Prop :=
  ∀ (x : Nibble) (nn : Byte) (s : State),
    decode (0x7#4 ++ x ++ nn) = .instr (.addByte x nn) ∧
    ∃ t, exec (.addByte x nn) s = .next t ∧ (t.reg x).toNat = ((s.reg x).toNat + nn.toNat) % 256 ∧
      (∀ r, r ≠ x → t.reg r = s.reg r) ∧ t.pc = s.pc + 2 ∧ OnlyChanges [.v, .pc] s t

/-- R102. The bit patterns are decision D1 (log entry 2). -/
def Obligations.LoadRegCopies : Prop :=
  ∀ (x y : Nibble) (s : State),
    decode (0x8#4 ++ x ++ y ++ 0x0#4) = .instr (.loadReg x y) ∧
    ∃ t, exec (.loadReg x y) s = .next t ∧ t.reg x = s.reg y ∧ (∀ r, r ≠ x → t.reg r = s.reg r) ∧
      t.pc = s.pc + 2 ∧ OnlyChanges [.v, .pc] s t

/-- R103, R104, R105: bit by bit into `V[x]`; VF unchanged unless it is the destination. The bit patterns are decision
D1 (log entry 2). -/
def Obligations.LogicWorksBitByBit : Prop :=
  ∀ (x y : Nibble) (s : State),
    decode (0x8#4 ++ x ++ y ++ 0x1#4) = .instr (.orReg x y) ∧
    decode (0x8#4 ++ x ++ y ++ 0x2#4) = .instr (.andReg x y) ∧
    decode (0x8#4 ++ x ++ y ++ 0x3#4) = .instr (.xorReg x y) ∧
    (∃ t, exec (.orReg x y) s = .next t ∧
      (∀ k, (t.reg x).getLsbD k = ((s.reg x).getLsbD k || (s.reg y).getLsbD k)) ∧
      (∀ r, r ≠ x → t.reg r = s.reg r) ∧ t.pc = s.pc + 2 ∧ OnlyChanges [.v, .pc] s t) ∧
    (∃ t, exec (.andReg x y) s = .next t ∧
      (∀ k, (t.reg x).getLsbD k = ((s.reg x).getLsbD k && (s.reg y).getLsbD k)) ∧
      (∀ r, r ≠ x → t.reg r = s.reg r) ∧ t.pc = s.pc + 2 ∧ OnlyChanges [.v, .pc] s t) ∧
    (∃ t, exec (.xorReg x y) s = .next t ∧
      (∀ k, (t.reg x).getLsbD k = ((s.reg x).getLsbD k ^^ (s.reg y).getLsbD k)) ∧
      (∀ r, r ≠ x → t.reg r = s.reg r) ∧ t.pc = s.pc + 2 ∧ OnlyChanges [.v, .pc] s t)

/-- R106, R12: sum mod 256, then the carry into VF. That the operands are read first and the flag lands last when `x`
or `y` is 15 is decision D12 (R13, log entry 5). The bit patterns are decision D1 (log entry 2). -/
def Obligations.AddRegGivesSumAndCarry : Prop :=
  ∀ (x y : Nibble) (s : State),
    decode (0x8#4 ++ x ++ y ++ 0x4#4) = .instr (.addReg x y) ∧
    ∃ t, exec (.addReg x y) s = .next t ∧
      (x ≠ vf → (t.reg x).toNat = ((s.reg x).toNat + (s.reg y).toNat) % 256) ∧
      (t.reg vf).toNat = (if (s.reg x).toNat + (s.reg y).toNat > 255 then 1 else 0) ∧
      (∀ r, r ≠ x → r ≠ vf → t.reg r = s.reg r) ∧ t.pc = s.pc + 2 ∧ OnlyChanges [.v, .pc] s t

/-- R107, R110, R112, R12: the difference mod 256, then "not borrow" into VF, both ways round. Decision D12 as for
add-reg. The bit patterns are decision D1 (log entry 2). -/
def Obligations.SubtractionsGiveDifferenceAndNotBorrow : Prop :=
  ∀ (x y : Nibble) (s : State),
    decode (0x8#4 ++ x ++ y ++ 0x5#4) = .instr (.sub x y) ∧
    decode (0x8#4 ++ x ++ y ++ 0x7#4) = .instr (.subn x y) ∧
    (∃ t, exec (.sub x y) s = .next t ∧
      (x ≠ vf → (t.reg x).toNat =
        if (s.reg x).toNat ≥ (s.reg y).toNat then (s.reg x).toNat - (s.reg y).toNat
        else (s.reg x).toNat + 256 - (s.reg y).toNat) ∧
      (t.reg vf).toNat = (if (s.reg x).toNat ≥ (s.reg y).toNat then 1 else 0) ∧
      (∀ r, r ≠ x → r ≠ vf → t.reg r = s.reg r) ∧ t.pc = s.pc + 2 ∧ OnlyChanges [.v, .pc] s t) ∧
    (∃ t, exec (.subn x y) s = .next t ∧
      (x ≠ vf → (t.reg x).toNat =
        if (s.reg y).toNat ≥ (s.reg x).toNat then (s.reg y).toNat - (s.reg x).toNat
        else (s.reg y).toNat + 256 - (s.reg x).toNat) ∧
      (t.reg vf).toNat = (if (s.reg y).toNat ≥ (s.reg x).toNat then 1 else 0) ∧
      (∀ r, r ≠ x → r ≠ vf → t.reg r = s.reg r) ∧ t.pc = s.pc + 2 ∧ OnlyChanges [.v, .pc] s t)

/-- R108, R109, R112, R68: shift by one, then the lost bit into VF; all sixteen values of `y` decode to it and none
matters (decision D33; D12 for `x = 15`). The bit patterns are decision D1 (log entry 2). -/
def Obligations.ShiftsGiveResultAndLostBit : Prop :=
  ∀ (x y : Nibble) (s : State),
    decode (0x8#4 ++ x ++ y ++ 0x6#4) = .instr (.shiftRight x y) ∧
    decode (0x8#4 ++ x ++ y ++ 0xE#4) = .instr (.shiftLeft x y) ∧
    (∃ t, exec (.shiftRight x y) s = .next t ∧
      (x ≠ vf → (t.reg x).toNat = (s.reg x).toNat / 2) ∧ (t.reg vf).toNat = (s.reg x).toNat % 2 ∧
      (∀ r, r ≠ x → r ≠ vf → t.reg r = s.reg r) ∧ t.pc = s.pc + 2 ∧ OnlyChanges [.v, .pc] s t) ∧
    (∃ t, exec (.shiftLeft x y) s = .next t ∧
      (x ≠ vf → (t.reg x).toNat = 2 * (s.reg x).toNat % 256) ∧ (t.reg vf).toNat = (s.reg x).toNat / 128 ∧
      (∀ r, r ≠ x → r ≠ vf → t.reg r = s.reg r) ∧ t.pc = s.pc + 2 ∧ OnlyChanges [.v, .pc] s t)

/-- R111: `V[x]` takes the free byte of this step masked by `nn`, whatever that byte is; a 0 bit of `nn` gives a 0
bit; `nn = 0xFF` shows the byte itself; the next executed random takes a
fresh byte (the counter goes on by one). The free byte is log entry 1 (decision D15). The bit patterns are decision D1
(log entry 2). -/
def Obligations.RandomMasksTheFreeByte : Prop :=
  ∀ (x : Nibble) (nn : Byte) (s : State),
    decode (0xC#4 ++ x ++ nn) = .instr (.random x nn) ∧
    ∃ t, exec (.random x nn) s = .next t ∧
      (∀ k, (t.reg x).getLsbD k = (nn.getLsbD k && (Config.randomByte s.draws).getLsbD k)) ∧
      (nn = 0 → t.reg x = 0) ∧ (∀ r, r ≠ x → t.reg r = s.reg r) ∧ t.draws = s.draws + 1 ∧ t.pc = s.pc + 2 ∧
      OnlyChanges [.v, .pc, .draws] s t

/-- R111, R169: "steps that execute another instruction ignore `rnd`": with another random byte to come, an instruction
other than random ends in the same state, the byte still to come. Log entry 1. -/
def Obligations.OthersIgnoreTheRandomByte : Prop :=
  ∀ (i : Instr) (s t : State) (d : Nat), (∀ x nn, i ≠ .random x nn) → exec i s = .next t →
    exec i { s with draws := d } = .next { t with draws := d }

/-- R11, the whole table: a register not in an instruction's "writes" is unchanged; await-key writes only when a key is
set; a register not in its "reads" has no influence on anything else; and no transaction of the host but reset writes a
register. -/
def Obligations.RegistersReadAndWrittenPerTable : Prop :=
  (∀ (i : Instr) (s t : State) (r : Nibble), exec i s = .next t → writesReg i r = false → t.reg r = s.reg r) ∧
  (∀ (x : Nibble) (s t : State) (r : Nibble), (∀ k, s.key k = false) → exec (.awaitKey x) s = .next t →
    t.reg r = s.reg r) ∧
  (∀ (i : Instr) (s t u : State) (r : Nibble) (b : Byte), readsReg i r = false → exec i s = .next t →
    exec i (s.setReg r b) = .next u → u.setReg r 0 = t.setReg r 0) ∧
  (∀ (tr : Transaction) (s t : State) (r : Nibble), tr ≠ .step → tr ≠ .reset → transact tr s = .next t →
    t.reg r = s.reg r)

/-- The frame of all 35 instructions at once (R8, R15 to R21): an instruction changes no part of the state but the ones
its rule writes and, if it can fault, the fault record; of memory, store-bcd changes at most the 3 bytes and store-block
at most the `x + 1` bytes from the effective address on (R123, R124, R126; decision D20 for `I`). That a fault changes
nothing but its record is decision D17. -/
def Obligations.InstructionsChangeOnlyTheirParts : Prop :=
  ∀ (i : Instr) (s t : State), exec i s = .next t →
    OnlyChanges (changedParts i) s t ∧
    (∀ x, i = .storeBcd x → MemoryKeptOutside (s.dataAddr 0) 3 s t) ∧
    (∀ x, i = .storeBlock x → MemoryKeptOutside (s.dataAddr 0) (x.toNat + 1) s t)

/-! ## Index register and memory (42_index_memory.md) -/

/-- R120: bits 15 to 12 of `I` become 0. The bit patterns are decision D1 (log entry 2). -/
def Obligations.LoadIndexSetsI : Prop :=
  ∀ (nnn : Addr12) (s : State),
    decode (0xA#4 ++ nnn) = .instr (.loadIndex nnn) ∧
    ∃ t, exec (.loadIndex nnn) s = .next t ∧ t.i.toNat = nnn.toNat ∧ t.pc = s.pc + 2 ∧ OnlyChanges [.i, .pc] s t

/-- R121, R122: add-index wraps at 2^16 and not at 2^12, without a flag; font-address takes five times the whole byte.
The wrap and the whole byte are decision D11. The bit patterns are decision D1 (log entry 2). -/
def Obligations.IndexArithmetic : Prop :=
  ∀ (x : Nibble) (s : State),
    decode (0xF#4 ++ x ++ 0x1E#8) = .instr (.addIndex x) ∧
    decode (0xF#4 ++ x ++ 0x29#8) = .instr (.fontAddress x) ∧
    (∃ t, exec (.addIndex x) s = .next t ∧ t.i.toNat = (s.i.toNat + (s.reg x).toNat) % 65536 ∧
      t.pc = s.pc + 2 ∧ OnlyChanges [.i, .pc] s t) ∧
    (∃ t, exec (.fontAddress x) s = .next t ∧ t.i.toNat = 5 * (s.reg x).toNat ∧
      t.pc = s.pc + 2 ∧ OnlyChanges [.i, .pc] s t)

/-- R123: three digits, hundreds first, at `I`, `I+1`, `I+2`; the digits make up the byte; nothing outside changes,
`I` included. That `I` is kept is decision D20. The bit patterns are decision D1 (log entry 2). -/
def Obligations.StoreBcdWritesDigits : Prop :=
  ∀ (x : Nibble) (s : State), s.i.toNat + 2 ≤ 0xFFF →
    decode (0xF#4 ++ x ++ 0x33#8) = .instr (.storeBcd x) ∧
    ∃ t, exec (.storeBcd x) s = .next t ∧
      (t.byte (s.dataAddr 0)).toNat = (s.reg x).toNat / 100 ∧
      (t.byte (s.dataAddr 1)).toNat = (s.reg x).toNat / 10 % 10 ∧
      (t.byte (s.dataAddr 2)).toNat = (s.reg x).toNat % 10 ∧
      MemoryKeptOutside (s.dataAddr 0) 3 s t ∧ t.pc = s.pc + 2 ∧ OnlyChanges [.mem, .pc] s t

/-- R124: `V[0]` to `V[x]` inclusive to `I` on, nothing outside. Decision D20 for `I`. The bit patterns are decision
D1 (log entry 2). -/
def Obligations.StoreBlockWritesRegisters : Prop :=
  ∀ (x : Nibble) (s : State), s.i.toNat + x.toNat ≤ 0xFFF →
    decode (0xF#4 ++ x ++ 0x55#8) = .instr (.storeBlock x) ∧
    ∃ t, exec (.storeBlock x) s = .next t ∧
      (∀ r : Nibble, r ≤ x → t.byte (s.dataAddr r.toNat) = s.reg r) ∧
      MemoryKeptOutside (s.dataAddr 0) (x.toNat + 1) s t ∧ t.pc = s.pc + 2 ∧ OnlyChanges [.mem, .pc] s t

/-- R125: `V[0]` to `V[x]` inclusive from `I` on, registers above `x` kept. Decision D20 for `I`. The bit patterns are
decision D1 (log entry 2). -/
def Obligations.LoadBlockReadsRegisters : Prop :=
  ∀ (x : Nibble) (s : State), s.i.toNat + x.toNat ≤ 0xFFF →
    decode (0xF#4 ++ x ++ 0x65#8) = .instr (.loadBlock x) ∧
    ∃ t, exec (.loadBlock x) s = .next t ∧
      (∀ r : Nibble, r ≤ x → t.reg r = s.byte (s.dataAddr r.toNat)) ∧
      (∀ r : Nibble, x < r → t.reg r = s.reg r) ∧ t.pc = s.pc + 2 ∧ OnlyChanges [.v, .pc] s t

/-- R46, R150, R151: a block that reaches above 0xFFF raises MemoryOutOfBounds with the first offending address,
`max(I, 0x1000)`, and has no partial effect. Decision D8; that a fault changes nothing but its record is decision D17; the
word recorded is `encode` of the instruction by log entry 6. -/
def Obligations.BlocksBeyondMemoryTrap : Prop :=
  ∀ (x y n : Nibble) (s : State),
    (s.i.toNat + 2 > 0xFFF → Traps (.storeBcd x) s .memoryOutOfBounds (max s.i.toNat 0x1000)) ∧
    (s.i.toNat + x.toNat > 0xFFF → Traps (.storeBlock x) s .memoryOutOfBounds (max s.i.toNat 0x1000)) ∧
    (s.i.toNat + x.toNat > 0xFFF → Traps (.loadBlock x) s .memoryOutOfBounds (max s.i.toNat 0x1000)) ∧
    (0 < n.toNat → s.i.toNat + n.toNat - 1 > 0xFFF →
      Traps (.draw x y n) s .memoryOutOfBounds (max s.i.toNat 0x1000))

/-- R124 and R125 together (R49: a read returns the latest write): store-block then load-block at the same `I`, with any
registers in between, brings `V[0]` to `V[x]` back. -/
def Obligations.LoadBlockUndoesStoreBlock : Prop :=
  ∀ (x : Nibble) (s t u : State), s.i.toNat + x.toNat ≤ 0xFFF → exec (.storeBlock x) s = .next t →
    (∀ a, u.byte a = t.byte a) → u.i = t.i →
    ∃ w, exec (.loadBlock x) u = .next w ∧ ∀ r : Nibble, r ≤ x → w.reg r = s.reg r

/-- R50: a store is seen by every later fetch with no further action, "including the very next step". After a store-bcd or
store-block that completes, wherever its block lies, a fetch at any address reads its stored bytes inside the block and the
old bytes outside; so the very next step executes what the word at its `PC` now decodes to, or raises UnknownOpcode with
that word. The stored bytes are R123 and R124 (decision D20); the record of the fault is decision D17. -/
def Obligations.StoreIsSeenByTheNextFetch : Prop :=
  ∀ (i : Instr) (s t : State), ((∃ x, i = .storeBcd x) ∨ ∃ x, i = .storeBlock x) → Running s →
    exec i s = .next t → Running t →
    (∀ a : Word, a.toNat ≤ 0xFFE → t.fetch a = some (wordAfterStore i s a.toNat)) ∧
    t.pc = s.pc + 2 ∧
    (t.pc.toNat ≤ 0xFFE →
      (∀ j, decode (wordAfterStore i s t.pc.toNat) = .instr j → step t = exec j t) ∧
      (∀ e, decode (wordAfterStore i s t.pc.toNat) = .rejected e →
        step t = .next (t.raise .unknownOpcode (wordAfterStore i s t.pc.toNat) 0)))

/-! ## Display (43_display.md) -/

/-- R130: every pixel false, VF not written. R132: no frame_ready (decision D19); that the event is told by
`frameReadyIn` is the model's choice (log entry 9). -/
def Obligations.ClearScreenClearsEveryPixel : Prop :=
  ∀ s : State,
    decode 0x00E0 = .instr .clearScreen ∧ frameReadyIn .clearScreen s = false ∧
    ∃ t, exec .clearScreen s = .next t ∧ (∀ y x, t.fb.pixel y x = false) ∧ t.pc = s.pc + 2 ∧
      OnlyChanges [.fb, .pc] s t

/-- R131, R133: the draw engine against its closed form. Exactly the pixels under a 1 bit of the wrapped sprite are
inverted; VF is 1 exactly if one of them was set, else 0, also when `x` or `y` is 15 (decision D12); `n = 0` draws
nothing wherever `I` points (decision D19). That the event is told by `frameReadyIn` is log entry 9. The bit patterns are
decision D1 (log entry 2). -/
def Obligations.DrawInvertsExactlyTheSprite : Prop :=
  ∀ (x y n : Nibble) (s : State), SpriteInMemory s n →
    decode (0xD#4 ++ x ++ y ++ n) = .instr (.draw x y n) ∧ frameReadyIn (.draw x y n) s = true ∧
    ∃ t, exec (.draw x y n) s = .next t ∧
      (∀ py px, (SpriteOver s x y n py px → t.fb.pixel py px = !s.fb.pixel py px) ∧
        (¬SpriteOver s x y n py px → t.fb.pixel py px = s.fb.pixel py px)) ∧
      ((∃ py px, SpriteOver s x y n py px ∧ s.fb.pixel py px = true) → t.reg vf = 1) ∧
      ((∀ py px, SpriteOver s x y n py px → s.fb.pixel py px = false) → t.reg vf = 0) ∧
      (∀ r, r ≠ vf → t.reg r = s.reg r) ∧ t.pc = s.pc + 2 ∧ OnlyChanges [.fb, .v, .pc] s t

/-- R133, property E4: two identical draws restore the frame buffer, and the second reports a collision exactly when the
first left a sprite pixel set; identical means that neither operand register is VF, or VF did not change in between. -/
def Obligations.DrawingTwiceRestoresTheScreen : Prop :=
  ∀ (x y n : Nibble) (s t u : State), SpriteInMemory s n → exec (.draw x y n) s = .next t →
    exec (.draw x y n) t = .next u → ((x ≠ vf ∧ y ≠ vf) ∨ t.reg vf = s.reg vf) →
    (∀ py px, u.fb.pixel py px = s.fb.pixel py px) ∧
      (u.reg vf = 1 ↔ ∃ py px, SpriteOver s x y n py px ∧ t.fb.pixel py px = true)

/-- R132, R25: `frame_ready` is emitted exactly by the steps that complete a draw, and by no other transaction.
Decision D19; that the event is told by `frameReady` and `respond` is log entry 9. -/
def Obligations.FrameReadyExactlyOnCompletedDraw : Prop :=
  (∀ s t : State, step s = .next t →
    ((respond .step s).frameReady = true ↔ Running t ∧ ∃ x y n, s.pendingInstr = some (.draw x y n))) ∧
  ∀ (tr : Transaction) (s : State), tr ≠ .step → (respond tr s).frameReady = false

/-! ## Keys and timers (44_keys_timers.md, 60_exceptions.md) -/

/-- R140, R141: for `V[x]` up to 15 the skips test the flag and only read it. The bit patterns are decision D1 (log
entry 2). -/
def Obligations.KeySkipsTestTheFlag : Prop :=
  ∀ (x k : Nibble) (s : State), (s.reg x).toNat = k.toNat →
    decode (0xE#4 ++ x ++ 0x9E#8) = .instr (.skipKeyPressed x) ∧
    decode (0xE#4 ++ x ++ 0xA1#8) = .instr (.skipKeyNotPressed x) ∧
    (∃ t, exec (.skipKeyPressed x) s = .next t ∧
      t.pc = (if s.key k = true then s.pc + 4 else s.pc + 2) ∧ OnlyChanges [.pc] s t) ∧
    (∃ t, exec (.skipKeyNotPressed x) s = .next t ∧
      t.pc = (if s.key k = true then s.pc + 2 else s.pc + 4) ∧ OnlyChanges [.pc] s t)

/-- R140, R141, R150, R151: above 15 they raise KeyIndexOutOfRange with `V[x]`. Decision D13; that a fault changes
nothing but its record is decision D17; the word recorded is `encode` of the instruction by log entry 6. -/
def Obligations.KeySkipsBeyondFifteenTrap : Prop :=
  ∀ (x : Nibble) (s : State), (s.reg x).toNat > 15 →
    Traps (.skipKeyPressed x) s .keyIndexOutOfRange (s.reg x).toNat ∧
    Traps (.skipKeyNotPressed x) s .keyIndexOutOfRange (s.reg x).toNat

/-- R143: with no key set, await-key changes nothing at all; else it takes the lowest set key, clears that flag only
and goes on. "First" as lowest is decision D14. The bit patterns are decision D1 (log entry 2). -/
def Obligations.AwaitKeyTakesTheLowestKey : Prop :=
  ∀ (x : Nibble) (s : State),
    decode (0xF#4 ++ x ++ 0x0A#8) = .instr (.awaitKey x) ∧
    ((∀ k, s.key k = false) → exec (.awaitKey x) s = .next s) ∧
    (∀ k, s.key k = true → (∀ j, j < k → s.key j = false) →
      ∃ t, exec (.awaitKey x) s = .next t ∧ (t.reg x).toNat = k.toNat ∧ (∀ r, r ≠ x → t.reg r = s.reg r) ∧
        t.key k = false ∧ (∀ j, j ≠ k → t.key j = s.key j) ∧ t.pc = s.pc + 2 ∧ OnlyChanges [.v, .keys, .pc] s t)

/-- R143, R188, property E8: a core at await-key with no key set stays as it is for any number of steps; when the host
then sets key `k`, the next step gives `V[x] = k`, clears the flag and advances. -/
def Obligations.AwaitKeyPollsUntilAKeyIsSet : Prop :=
  ∀ (x k : Nibble) (s : State) (polls : Nat), s.pendingInstr = some (.awaitKey x) → (∀ j, s.key j = false) →
    runTransactions (List.replicate polls .step) s = .next s ∧
    ∃ t, runTransactions (List.replicate polls .step ++ [.setKey k true, .step]) s = .next t ∧
      (t.reg x).toNat = k.toNat ∧ (∀ r, r ≠ x → t.reg r = s.reg r) ∧ (∀ j, t.key j = false) ∧ t.pc = s.pc + 2 ∧
      OnlyChanges [.v, .pc] s t

/-- R142, R144, R145. The bit patterns are decision D1 (log entry 2). -/
def Obligations.TimerInstructionsMoveTheByte : Prop :=
  ∀ (x : Nibble) (s : State),
    decode (0xF#4 ++ x ++ 0x07#8) = .instr (.loadDelay x) ∧
    decode (0xF#4 ++ x ++ 0x15#8) = .instr (.storeDelay x) ∧
    decode (0xF#4 ++ x ++ 0x18#8) = .instr (.loadSoundStore x) ∧
    (∃ t, exec (.loadDelay x) s = .next t ∧ t.reg x = s.dt ∧ (∀ r, r ≠ x → t.reg r = s.reg r) ∧
      t.pc = s.pc + 2 ∧ OnlyChanges [.v, .pc] s t) ∧
    (∃ t, exec (.storeDelay x) s = .next t ∧ t.dt = s.reg x ∧ t.pc = s.pc + 2 ∧ OnlyChanges [.dt, .pc] s t) ∧
    (∃ t, exec (.loadSoundStore x) s = .next t ∧ t.st = s.reg x ∧ t.pc = s.pc + 2 ∧ OnlyChanges [.st, .pc] s t)

/-- R160: after `n` ticks a timer that held `v` holds `max(v - n, 0)`, each on its own, and
nothing else is touched; one tick is the case `n = 1`. -/
def Obligations.TicksCountDownToZero : Prop :=
  ∀ (n : Nat) (s : State), ∃ t, runTransactions (List.replicate n .tick) s = .next t ∧
    t.dt.toNat = s.dt.toNat - n ∧ t.st.toNat = s.st.toNat - n ∧ OnlyChanges [.dt, .st] s t

/-- R162: `set_key` sets the one flag to the level given and changes nothing else. R19, R143: no instruction sets a flag,
and none but await-key clears any (that await-key clears exactly one is AwaitKeyTakesTheLowestKey). R163: `get_keys` shows
the flags. -/
def Obligations.SetKeySetsOneLevel : Prop :=
  (∀ (k : Nibble) (on : Bool) (s : State), ∃ t, transact (.setKey k on) s = .next t ∧ t.key k = on ∧
    (∀ j, j ≠ k → t.key j = s.key j) ∧ OnlyChanges [.keys] s t) ∧
  (∀ (i : Instr) (s t : State) (k : Nibble), exec i s = .next t →
    ((∀ x, i ≠ .awaitKey x) → t.key k = s.key k) ∧ (t.key k = true → s.key k = true)) ∧
  ∀ (s : State) (k : Nibble), (getKeys s)[k.toNat]? = some (s.key k)

/-- R166, R167: an image of at most 3584 bytes is copied verbatim to 0x200 on and nothing else is written; a larger one
is refused whole with RomTooLarge, and no fault is recorded. Decisions D22, D35. -/
def Obligations.LoadProgramCopiesOrRefusesWhole : Prop :=
  ∀ (bytes : List Byte) (s : State),
    (bytes.length ≤ 3584 → (respond (.loadProgram bytes) s).loadStatus = some .ok ∧
      ∃ t, transact (.loadProgram bytes) s = .next t ∧
        (∀ k, k < bytes.length → t.byte (0x200 + k) = bytes.getD k 0) ∧
        MemoryKeptOutside 0x200 bytes.length s t ∧ OnlyChanges [.mem] s t) ∧
    (bytes.length > 3584 → (respond (.loadProgram bytes) s).loadStatus = some .romTooLarge ∧
      transact (.loadProgram bytes) s = .next s)

/-- R185, R82: a core at a jump to itself repeats for ever with no state change; ticks and key writes between the steps
change data but cannot move the program on. -/
def Obligations.JumpToSelfNeverMovesOn : Prop :=
  ∀ (s : State) (ts : List Transaction), AtJumpToSelf s →
    (∀ tr ∈ ts, tr = .step ∨ tr = .tick ∨ ∃ k on, tr = .setKey k on) →
    (∀ n, runTransactions (List.replicate n .step) s = .next s) ∧
    ∃ t, runTransactions ts s = .next t ∧ AtJumpToSelf t ∧ OnlyChanges [.dt, .st, .keys] s t

/-- R29: bit `64*y + x` of port `fb` is pixel `FB[y][x]`, bit `k` of port `keys` is `KEY[k]`. Decision D34. -/
def Obligations.PortsShowPixelsAndKeys : Prop :=
  (∀ (s : State) (y : Fin 32) (x : Fin 64), (fbPort s).getLsbD (64 * y.val + x.val) = s.fb.pixel y x) ∧
  ∀ (s : State) (k : Nibble), (keysPort s).getLsbD k.toNat = s.key k

/-! ## The configuration (00_scope.md) -/

/-- R5, R24: the constants of the spec and the defaults of its parameters, which State.reset is built with. The glyph bytes
are decision D3 (log entry 3), the depth decision D5; the glyph of digit `d` is five bytes from `5 * d` on. -/
def Obligations.ConstantsAndDefaultParameters : Prop :=
  Config.memSize = 4096 ∧ Config.loadBase = 0x200 ∧ Config.romMax = Config.memSize - Config.loadBase ∧
  State.reset = State.resetWith Config.default ∧ Config.default.stackDepth.val = 16 ∧
  State.reset.bytes 0 20 =
    [0xF0, 0x90, 0x90, 0x90, 0xF0, 0x20, 0x60, 0x20, 0x20, 0x70, 0xF0, 0x10, 0xF0, 0x80, 0xF0, 0xF0, 0x10, 0xF0, 0x10, 0xF0] ∧
  State.reset.bytes 20 20 =
    [0x90, 0x90, 0xF0, 0x10, 0x10, 0xF0, 0x80, 0xF0, 0x10, 0xF0, 0xF0, 0x80, 0xF0, 0x90, 0xF0, 0xF0, 0x10, 0x20, 0x40, 0x40] ∧
  State.reset.bytes 40 20 =
    [0xF0, 0x90, 0xF0, 0x90, 0xF0, 0xF0, 0x90, 0xF0, 0x10, 0xF0, 0xF0, 0x90, 0xF0, 0x90, 0x90, 0xE0, 0x90, 0xE0, 0x90, 0xE0] ∧
  State.reset.bytes 60 20 =
    [0xF0, 0x80, 0x80, 0x80, 0xF0, 0xE0, 0x90, 0x90, 0x90, 0xE0, 0xF0, 0x80, 0xF0, 0x80, 0xF0, 0xF0, 0x80, 0xF0, 0x80, 0x80]

/-- R5: the parameters are the machine's configuration: no transaction changes them. That they ride in State is the
model's choice (log entry 19). -/
def Obligations.ParametersNeverChange : Prop :=
  ∀ (ts : List Transaction) (s t : State), runTransactions ts s = .next t → t.config = s.config
end

