-- ==== Sys2Proof/Laws/Decode.lean ====
section
/-! SUPPORT. Words and their fields as numbers (30_encoding.md R62, R63): each format's word, and each field of a word,
by its value; then the fields of an assembled word. -/

namespace Sys2Proof

theorem toNat_append_eq {m n : Nat} (a : BitVec m) (b : BitVec n) : (a ++ b).toNat = a.toNat * 2 ^ n + b.toNat := by
  rw [BitVec.toNat_append, ← Nat.shiftLeft_add_eq_or_of_lt b.isLt, Nat.shiftLeft_eq]

/-- Format NNN. -/
theorem toNat_nnn (f : Nibble) (nnn : Addr12) : BitVec.toNat (w := 16) (f ++ nnn) = f.toNat * 4096 + nnn.toNat :=
  toNat_append_eq f nnn

/-- Formats XNN and XS. -/
theorem toNat_xnn (f x : Nibble) (nn : Byte) :
    BitVec.toNat (w := 16) (f ++ x ++ nn) = f.toNat * 4096 + x.toNat * 256 + nn.toNat := by
  have h := toNat_append_eq (f ++ x) nn
  rw [toNat_append_eq f x] at h
  exact h.trans (by omega)

/-- Formats XY and XYN. -/
theorem toNat_xyn (f x y n : Nibble) :
    BitVec.toNat (w := 16) (f ++ x ++ y ++ n) = f.toNat * 4096 + x.toNat * 256 + y.toNat * 16 + n.toNat := by
  have h := toNat_append_eq (f ++ x ++ y) n
  rw [toNat_append_eq (f ++ x) y, toNat_append_eq f x] at h
  exact h.trans (by omega)

theorem toNat_wordOfBytes (hi lo : Byte) : (wordOfBytes hi lo).toNat = hi.toNat * 256 + lo.toNat :=
  toNat_append_eq hi lo

theorem toNat_fieldFamily (w : Word) : (fieldFamily w).toNat = w.toNat / 4096 := by
  have h := w.isLt
  simp only [fieldFamily, BitVec.extractLsb'_toNat, Nat.shiftRight_eq_div_pow]
  omega

theorem toNat_fieldX (w : Word) : (fieldX w).toNat = w.toNat / 256 % 16 := by
  simp [fieldX, Nat.shiftRight_eq_div_pow]

theorem toNat_fieldY (w : Word) : (fieldY w).toNat = w.toNat / 16 % 16 := by
  simp [fieldY, Nat.shiftRight_eq_div_pow]

theorem toNat_fieldN (w : Word) : (fieldN w).toNat = w.toNat % 16 := by
  simp [fieldN, Nat.shiftRight_eq_div_pow]

theorem toNat_fieldNN (w : Word) : (fieldNN w).toNat = w.toNat % 256 := by
  simp [fieldNN, Nat.shiftRight_eq_div_pow]

theorem toNat_fieldNNN (w : Word) : (fieldNNN w).toNat = w.toNat % 4096 := by
  simp [fieldNNN, Nat.shiftRight_eq_div_pow]

theorem toNat_hiByte (w : Word) : (hiByte w).toNat = w.toNat / 256 := by
  have h := w.isLt
  simp only [hiByte, BitVec.extractLsb'_toNat, Nat.shiftRight_eq_div_pow]
  omega

theorem toNat_loByte (w : Word) : (loByte w).toNat = w.toNat % 256 := by
  simp [loByte, Nat.shiftRight_eq_div_pow]

/-- Laying a word out high byte first and reading it back gives the word (R42, R61). -/
@[simp] theorem wordOfBytes_hiByte_loByte (w : Word) : wordOfBytes (hiByte w) (loByte w) = w := by
  apply BitVec.eq_of_toNat_eq
  rw [toNat_wordOfBytes, toNat_hiByte, toNat_loByte]
  omega

/-! ### The fields of an assembled word -/

section
variable (f x y n : Nibble) (nn : Byte) (nnn : Addr12)

@[simp] theorem fieldFamily_nnn : fieldFamily (f ++ nnn) = f := by
  have := f.isLt; have := nnn.isLt
  apply BitVec.eq_of_toNat_eq; rw [toNat_fieldFamily, toNat_nnn]; omega

@[simp] theorem fieldNNN_nnn : fieldNNN (f ++ nnn) = nnn := by
  have := f.isLt; have := nnn.isLt
  apply BitVec.eq_of_toNat_eq; rw [toNat_fieldNNN, toNat_nnn]; omega

@[simp] theorem fieldFamily_xnn : fieldFamily (f ++ x ++ nn) = f := by
  have := f.isLt; have := x.isLt; have := nn.isLt
  apply BitVec.eq_of_toNat_eq; rw [toNat_fieldFamily, toNat_xnn]; omega

@[simp] theorem fieldX_xnn : fieldX (f ++ x ++ nn) = x := by
  have := f.isLt; have := x.isLt; have := nn.isLt
  apply BitVec.eq_of_toNat_eq; rw [toNat_fieldX, toNat_xnn]; omega

@[simp] theorem fieldNN_xnn : fieldNN (f ++ x ++ nn) = nn := by
  have := f.isLt; have := x.isLt; have := nn.isLt
  apply BitVec.eq_of_toNat_eq; rw [toNat_fieldNN, toNat_xnn]; omega

@[simp] theorem fieldFamily_xyn : fieldFamily (f ++ x ++ y ++ n) = f := by
  have := f.isLt; have := x.isLt; have := y.isLt; have := n.isLt
  apply BitVec.eq_of_toNat_eq; rw [toNat_fieldFamily, toNat_xyn]; omega

@[simp] theorem fieldX_xyn : fieldX (f ++ x ++ y ++ n) = x := by
  have := f.isLt; have := x.isLt; have := y.isLt; have := n.isLt
  apply BitVec.eq_of_toNat_eq; rw [toNat_fieldX, toNat_xyn]; omega

@[simp] theorem fieldY_xyn : fieldY (f ++ x ++ y ++ n) = y := by
  have := f.isLt; have := x.isLt; have := y.isLt; have := n.isLt
  apply BitVec.eq_of_toNat_eq; rw [toNat_fieldY, toNat_xyn]; omega

@[simp] theorem fieldN_xyn : fieldN (f ++ x ++ y ++ n) = n := by
  have := f.isLt; have := x.isLt; have := y.isLt; have := n.isLt
  apply BitVec.eq_of_toNat_eq; rw [toNat_fieldN, toNat_xyn]; omega

end

/-! ### A word from its fields -/

theorem eq_nnn_of_fields (w : Word) : fieldFamily w ++ fieldNNN w = w := by
  apply BitVec.eq_of_toNat_eq
  rw [toNat_nnn, toNat_fieldFamily, toNat_fieldNNN]; omega

theorem eq_xnn_of_fields (w : Word) : fieldFamily w ++ fieldX w ++ fieldNN w = w := by
  apply BitVec.eq_of_toNat_eq
  rw [toNat_xnn, toNat_fieldFamily, toNat_fieldX, toNat_fieldNN]; omega

theorem eq_xyn_of_fields (w : Word) : fieldFamily w ++ fieldX w ++ fieldY w ++ fieldN w = w := by
  apply BitVec.eq_of_toNat_eq
  rw [toNat_xyn, toNat_fieldFamily, toNat_fieldX, toNat_fieldY, toNat_fieldN]; omega

/-! ### The masks of the opcode table (R64) -/

theorem and_F000 (w : Word) : w &&& 0xF000 = fieldFamily w ++ 0x000#12 := by
  apply BitVec.eq_of_getLsbD_eq
  intro i hi
  have e : BitVec.getLsbD (w := 16) (fieldFamily w ++ 0x000#12) i =
      if i < 12 then false else (fieldFamily w).getLsbD (i - 12) := by
    simpa using BitVec.getLsbD_append (x := fieldFamily w) (y := 0x000#12) (i := i)
  rw [e, BitVec.getLsbD_and]
  interval_cases i <;> simp [fieldFamily]

theorem and_F00F (w : Word) : w &&& 0xF00F = fieldFamily w ++ 0x0#4 ++ 0x0#4 ++ fieldN w := by
  apply BitVec.eq_of_getLsbD_eq
  intro i hi
  have e : BitVec.getLsbD (w := 16) (fieldFamily w ++ 0x0#4 ++ 0x0#4 ++ fieldN w) i =
      if i < 4 then (fieldN w).getLsbD i
      else if i - 4 < 4 then false else if i - 4 - 4 < 4 then false else (fieldFamily w).getLsbD (i - 4 - 4 - 4) := by
    refine Eq.trans (BitVec.getLsbD_append (x := fieldFamily w ++ 0x0#4 ++ 0x0#4) (y := fieldN w) (i := i)) ?_
    rw [BitVec.getLsbD_append (x := fieldFamily w ++ 0x0#4), BitVec.getLsbD_append (x := fieldFamily w)]
    simp
  rw [e, BitVec.getLsbD_and]
  interval_cases i <;> simp [fieldFamily, fieldN]

theorem and_F0FF (w : Word) : w &&& 0xF0FF = fieldFamily w ++ 0x0#4 ++ fieldNN w := by
  apply BitVec.eq_of_getLsbD_eq
  intro i hi
  have e : BitVec.getLsbD (w := 16) (fieldFamily w ++ 0x0#4 ++ fieldNN w) i =
      if i < 8 then (fieldNN w).getLsbD i
      else if i - 8 < 4 then false else (fieldFamily w).getLsbD (i - 8 - 4) := by
    refine Eq.trans (BitVec.getLsbD_append (x := fieldFamily w ++ 0x0#4) (y := fieldNN w) (i := i)) ?_
    rw [BitVec.getLsbD_append (x := fieldFamily w)]
    simp
  rw [e, BitVec.getLsbD_and]
  interval_cases i <;> simp [fieldFamily, fieldNN]

end Sys2Proof
end

