-- ==== Sys2Proof/Laws/State.lean ====
section
/-! SUPPORT. One lemma per field per update of State, and the register and key reads after each update. -/

namespace Sys2Proof.Machine

variable (s : State)

/-! ### setReg -/

@[simp] theorem State.setReg_v (x : Nibble) (b : Byte) : (s.setReg x b).v = s.v.set x.toNat b x.isLt := rfl
@[simp] theorem State.setReg_i (x : Nibble) (b : Byte) : (s.setReg x b).i = s.i := rfl
@[simp] theorem State.setReg_pc (x : Nibble) (b : Byte) : (s.setReg x b).pc = s.pc := rfl
@[simp] theorem State.setReg_sp (x : Nibble) (b : Byte) : (s.setReg x b).sp = s.sp := rfl
@[simp] theorem State.setReg_stack (x : Nibble) (b : Byte) : (s.setReg x b).stack = s.stack := rfl
@[simp] theorem State.setReg_dt (x : Nibble) (b : Byte) : (s.setReg x b).dt = s.dt := rfl
@[simp] theorem State.setReg_st (x : Nibble) (b : Byte) : (s.setReg x b).st = s.st := rfl
@[simp] theorem State.setReg_keys (x : Nibble) (b : Byte) : (s.setReg x b).keys = s.keys := rfl
@[simp] theorem State.setReg_fb (x : Nibble) (b : Byte) : (s.setReg x b).fb = s.fb := rfl
@[simp] theorem State.setReg_mem (x : Nibble) (b : Byte) : (s.setReg x b).mem = s.mem := rfl
@[simp] theorem State.setReg_fault (x : Nibble) (b : Byte) : (s.setReg x b).fault = s.fault := rfl
@[simp] theorem State.setReg_draws (x : Nibble) (b : Byte) : (s.setReg x b).draws = s.draws := rfl
@[simp] theorem State.setReg_config (x : Nibble) (b : Byte) : (s.setReg x b).config = s.config := rfl
@[simp] theorem State.setReg_byte (x : Nibble) (b : Byte) (a : Nat) : (s.setReg x b).byte a = s.byte a := rfl
@[simp] theorem State.setReg_key (x : Nibble) (b : Byte) (r : Nibble) : (s.setReg x b).key r = s.key r := rfl

/-! ### setFlag -/

@[simp] theorem State.setFlag_v (b : Byte) : (s.setFlag b).v = s.v.set 15 b := rfl
@[simp] theorem State.setFlag_i (b : Byte) : (s.setFlag b).i = s.i := rfl
@[simp] theorem State.setFlag_pc (b : Byte) : (s.setFlag b).pc = s.pc := rfl
@[simp] theorem State.setFlag_sp (b : Byte) : (s.setFlag b).sp = s.sp := rfl
@[simp] theorem State.setFlag_stack (b : Byte) : (s.setFlag b).stack = s.stack := rfl
@[simp] theorem State.setFlag_dt (b : Byte) : (s.setFlag b).dt = s.dt := rfl
@[simp] theorem State.setFlag_st (b : Byte) : (s.setFlag b).st = s.st := rfl
@[simp] theorem State.setFlag_keys (b : Byte) : (s.setFlag b).keys = s.keys := rfl
@[simp] theorem State.setFlag_fb (b : Byte) : (s.setFlag b).fb = s.fb := rfl
@[simp] theorem State.setFlag_mem (b : Byte) : (s.setFlag b).mem = s.mem := rfl
@[simp] theorem State.setFlag_fault (b : Byte) : (s.setFlag b).fault = s.fault := rfl
@[simp] theorem State.setFlag_draws (b : Byte) : (s.setFlag b).draws = s.draws := rfl
@[simp] theorem State.setFlag_config (b : Byte) : (s.setFlag b).config = s.config := rfl
@[simp] theorem State.setFlag_byte (b : Byte) (a : Nat) : (s.setFlag b).byte a = s.byte a := rfl
@[simp] theorem State.setFlag_key (b : Byte) (r : Nibble) : (s.setFlag b).key r = s.key r := rfl

/-! ### setI -/

@[simp] theorem State.setI_v (w : Word) : (s.setI w).v = s.v := rfl
@[simp] theorem State.setI_i (w : Word) : (s.setI w).i = w := rfl
@[simp] theorem State.setI_pc (w : Word) : (s.setI w).pc = s.pc := rfl
@[simp] theorem State.setI_sp (w : Word) : (s.setI w).sp = s.sp := rfl
@[simp] theorem State.setI_stack (w : Word) : (s.setI w).stack = s.stack := rfl
@[simp] theorem State.setI_dt (w : Word) : (s.setI w).dt = s.dt := rfl
@[simp] theorem State.setI_st (w : Word) : (s.setI w).st = s.st := rfl
@[simp] theorem State.setI_keys (w : Word) : (s.setI w).keys = s.keys := rfl
@[simp] theorem State.setI_fb (w : Word) : (s.setI w).fb = s.fb := rfl
@[simp] theorem State.setI_mem (w : Word) : (s.setI w).mem = s.mem := rfl
@[simp] theorem State.setI_fault (w : Word) : (s.setI w).fault = s.fault := rfl
@[simp] theorem State.setI_draws (w : Word) : (s.setI w).draws = s.draws := rfl
@[simp] theorem State.setI_config (w : Word) : (s.setI w).config = s.config := rfl
@[simp] theorem State.setI_byte (w : Word) (a : Nat) : (s.setI w).byte a = s.byte a := rfl
@[simp] theorem State.setI_reg (w : Word) (r : Nibble) : (s.setI w).reg r = s.reg r := rfl
@[simp] theorem State.setI_key (w : Word) (r : Nibble) : (s.setI w).key r = s.key r := rfl

/-! ### setPC -/

@[simp] theorem State.setPC_v (w : Word) : (s.setPC w).v = s.v := rfl
@[simp] theorem State.setPC_i (w : Word) : (s.setPC w).i = s.i := rfl
@[simp] theorem State.setPC_pc (w : Word) : (s.setPC w).pc = w := rfl
@[simp] theorem State.setPC_sp (w : Word) : (s.setPC w).sp = s.sp := rfl
@[simp] theorem State.setPC_stack (w : Word) : (s.setPC w).stack = s.stack := rfl
@[simp] theorem State.setPC_dt (w : Word) : (s.setPC w).dt = s.dt := rfl
@[simp] theorem State.setPC_st (w : Word) : (s.setPC w).st = s.st := rfl
@[simp] theorem State.setPC_keys (w : Word) : (s.setPC w).keys = s.keys := rfl
@[simp] theorem State.setPC_fb (w : Word) : (s.setPC w).fb = s.fb := rfl
@[simp] theorem State.setPC_mem (w : Word) : (s.setPC w).mem = s.mem := rfl
@[simp] theorem State.setPC_fault (w : Word) : (s.setPC w).fault = s.fault := rfl
@[simp] theorem State.setPC_draws (w : Word) : (s.setPC w).draws = s.draws := rfl
@[simp] theorem State.setPC_config (w : Word) : (s.setPC w).config = s.config := rfl
@[simp] theorem State.setPC_byte (w : Word) (a : Nat) : (s.setPC w).byte a = s.byte a := rfl
@[simp] theorem State.setPC_reg (w : Word) (r : Nibble) : (s.setPC w).reg r = s.reg r := rfl
@[simp] theorem State.setPC_key (w : Word) (r : Nibble) : (s.setPC w).key r = s.key r := rfl

/-! ### advance -/

@[simp] theorem State.advance_v : (s.advance).v = s.v := rfl
@[simp] theorem State.advance_i : (s.advance).i = s.i := rfl
@[simp] theorem State.advance_pc : (s.advance).pc = s.pc + 2 := rfl
@[simp] theorem State.advance_sp : (s.advance).sp = s.sp := rfl
@[simp] theorem State.advance_stack : (s.advance).stack = s.stack := rfl
@[simp] theorem State.advance_dt : (s.advance).dt = s.dt := rfl
@[simp] theorem State.advance_st : (s.advance).st = s.st := rfl
@[simp] theorem State.advance_keys : (s.advance).keys = s.keys := rfl
@[simp] theorem State.advance_fb : (s.advance).fb = s.fb := rfl
@[simp] theorem State.advance_mem : (s.advance).mem = s.mem := rfl
@[simp] theorem State.advance_fault : (s.advance).fault = s.fault := rfl
@[simp] theorem State.advance_draws : (s.advance).draws = s.draws := rfl
@[simp] theorem State.advance_config : (s.advance).config = s.config := rfl
@[simp] theorem State.advance_byte (a : Nat) : (s.advance).byte a = s.byte a := rfl
@[simp] theorem State.advance_reg (r : Nibble) : (s.advance).reg r = s.reg r := rfl
@[simp] theorem State.advance_key (r : Nibble) : (s.advance).key r = s.key r := rfl

/-! ### skipIf -/

@[simp] theorem State.skipIf_v (c : Bool) : (s.skipIf c).v = s.v := rfl
@[simp] theorem State.skipIf_i (c : Bool) : (s.skipIf c).i = s.i := rfl
@[simp] theorem State.skipIf_pc (c : Bool) : (s.skipIf c).pc = s.pc + if c then 4 else 2 := rfl
@[simp] theorem State.skipIf_sp (c : Bool) : (s.skipIf c).sp = s.sp := rfl
@[simp] theorem State.skipIf_stack (c : Bool) : (s.skipIf c).stack = s.stack := rfl
@[simp] theorem State.skipIf_dt (c : Bool) : (s.skipIf c).dt = s.dt := rfl
@[simp] theorem State.skipIf_st (c : Bool) : (s.skipIf c).st = s.st := rfl
@[simp] theorem State.skipIf_keys (c : Bool) : (s.skipIf c).keys = s.keys := rfl
@[simp] theorem State.skipIf_fb (c : Bool) : (s.skipIf c).fb = s.fb := rfl
@[simp] theorem State.skipIf_mem (c : Bool) : (s.skipIf c).mem = s.mem := rfl
@[simp] theorem State.skipIf_fault (c : Bool) : (s.skipIf c).fault = s.fault := rfl
@[simp] theorem State.skipIf_draws (c : Bool) : (s.skipIf c).draws = s.draws := rfl
@[simp] theorem State.skipIf_config (c : Bool) : (s.skipIf c).config = s.config := rfl
@[simp] theorem State.skipIf_byte (c : Bool) (a : Nat) : (s.skipIf c).byte a = s.byte a := rfl
@[simp] theorem State.skipIf_reg (c : Bool) (r : Nibble) : (s.skipIf c).reg r = s.reg r := rfl
@[simp] theorem State.skipIf_key (c : Bool) (r : Nibble) : (s.skipIf c).key r = s.key r := rfl

/-! ### setDT -/

@[simp] theorem State.setDT_v (b : Byte) : (s.setDT b).v = s.v := rfl
@[simp] theorem State.setDT_i (b : Byte) : (s.setDT b).i = s.i := rfl
@[simp] theorem State.setDT_pc (b : Byte) : (s.setDT b).pc = s.pc := rfl
@[simp] theorem State.setDT_sp (b : Byte) : (s.setDT b).sp = s.sp := rfl
@[simp] theorem State.setDT_stack (b : Byte) : (s.setDT b).stack = s.stack := rfl
@[simp] theorem State.setDT_dt (b : Byte) : (s.setDT b).dt = b := rfl
@[simp] theorem State.setDT_st (b : Byte) : (s.setDT b).st = s.st := rfl
@[simp] theorem State.setDT_keys (b : Byte) : (s.setDT b).keys = s.keys := rfl
@[simp] theorem State.setDT_fb (b : Byte) : (s.setDT b).fb = s.fb := rfl
@[simp] theorem State.setDT_mem (b : Byte) : (s.setDT b).mem = s.mem := rfl
@[simp] theorem State.setDT_fault (b : Byte) : (s.setDT b).fault = s.fault := rfl
@[simp] theorem State.setDT_draws (b : Byte) : (s.setDT b).draws = s.draws := rfl
@[simp] theorem State.setDT_config (b : Byte) : (s.setDT b).config = s.config := rfl
@[simp] theorem State.setDT_byte (b : Byte) (a : Nat) : (s.setDT b).byte a = s.byte a := rfl
@[simp] theorem State.setDT_reg (b : Byte) (r : Nibble) : (s.setDT b).reg r = s.reg r := rfl
@[simp] theorem State.setDT_key (b : Byte) (r : Nibble) : (s.setDT b).key r = s.key r := rfl

/-! ### setST -/

@[simp] theorem State.setST_v (b : Byte) : (s.setST b).v = s.v := rfl
@[simp] theorem State.setST_i (b : Byte) : (s.setST b).i = s.i := rfl
@[simp] theorem State.setST_pc (b : Byte) : (s.setST b).pc = s.pc := rfl
@[simp] theorem State.setST_sp (b : Byte) : (s.setST b).sp = s.sp := rfl
@[simp] theorem State.setST_stack (b : Byte) : (s.setST b).stack = s.stack := rfl
@[simp] theorem State.setST_dt (b : Byte) : (s.setST b).dt = s.dt := rfl
@[simp] theorem State.setST_st (b : Byte) : (s.setST b).st = b := rfl
@[simp] theorem State.setST_keys (b : Byte) : (s.setST b).keys = s.keys := rfl
@[simp] theorem State.setST_fb (b : Byte) : (s.setST b).fb = s.fb := rfl
@[simp] theorem State.setST_mem (b : Byte) : (s.setST b).mem = s.mem := rfl
@[simp] theorem State.setST_fault (b : Byte) : (s.setST b).fault = s.fault := rfl
@[simp] theorem State.setST_draws (b : Byte) : (s.setST b).draws = s.draws := rfl
@[simp] theorem State.setST_config (b : Byte) : (s.setST b).config = s.config := rfl
@[simp] theorem State.setST_byte (b : Byte) (a : Nat) : (s.setST b).byte a = s.byte a := rfl
@[simp] theorem State.setST_reg (b : Byte) (r : Nibble) : (s.setST b).reg r = s.reg r := rfl
@[simp] theorem State.setST_key (b : Byte) (r : Nibble) : (s.setST b).key r = s.key r := rfl

/-! ### setKeyFlag -/

@[simp] theorem State.setKeyFlag_v (k : Nibble) (on : Bool) : (s.setKeyFlag k on).v = s.v := rfl
@[simp] theorem State.setKeyFlag_i (k : Nibble) (on : Bool) : (s.setKeyFlag k on).i = s.i := rfl
@[simp] theorem State.setKeyFlag_pc (k : Nibble) (on : Bool) : (s.setKeyFlag k on).pc = s.pc := rfl
@[simp] theorem State.setKeyFlag_sp (k : Nibble) (on : Bool) : (s.setKeyFlag k on).sp = s.sp := rfl
@[simp] theorem State.setKeyFlag_stack (k : Nibble) (on : Bool) : (s.setKeyFlag k on).stack = s.stack := rfl
@[simp] theorem State.setKeyFlag_dt (k : Nibble) (on : Bool) : (s.setKeyFlag k on).dt = s.dt := rfl
@[simp] theorem State.setKeyFlag_st (k : Nibble) (on : Bool) : (s.setKeyFlag k on).st = s.st := rfl
@[simp] theorem State.setKeyFlag_keys (k : Nibble) (on : Bool) : (s.setKeyFlag k on).keys = s.keys.set k.toNat on k.isLt := rfl
@[simp] theorem State.setKeyFlag_fb (k : Nibble) (on : Bool) : (s.setKeyFlag k on).fb = s.fb := rfl
@[simp] theorem State.setKeyFlag_mem (k : Nibble) (on : Bool) : (s.setKeyFlag k on).mem = s.mem := rfl
@[simp] theorem State.setKeyFlag_fault (k : Nibble) (on : Bool) : (s.setKeyFlag k on).fault = s.fault := rfl
@[simp] theorem State.setKeyFlag_draws (k : Nibble) (on : Bool) : (s.setKeyFlag k on).draws = s.draws := rfl
@[simp] theorem State.setKeyFlag_config (k : Nibble) (on : Bool) : (s.setKeyFlag k on).config = s.config := rfl
@[simp] theorem State.setKeyFlag_byte (k : Nibble) (on : Bool) (a : Nat) : (s.setKeyFlag k on).byte a = s.byte a := rfl
@[simp] theorem State.setKeyFlag_reg (k : Nibble) (on : Bool) (r : Nibble) : (s.setKeyFlag k on).reg r = s.reg r := rfl

/-! ### setFB -/

@[simp] theorem State.setFB_v (fb : FrameBuffer) : (s.setFB fb).v = s.v := rfl
@[simp] theorem State.setFB_i (fb : FrameBuffer) : (s.setFB fb).i = s.i := rfl
@[simp] theorem State.setFB_pc (fb : FrameBuffer) : (s.setFB fb).pc = s.pc := rfl
@[simp] theorem State.setFB_sp (fb : FrameBuffer) : (s.setFB fb).sp = s.sp := rfl
@[simp] theorem State.setFB_stack (fb : FrameBuffer) : (s.setFB fb).stack = s.stack := rfl
@[simp] theorem State.setFB_dt (fb : FrameBuffer) : (s.setFB fb).dt = s.dt := rfl
@[simp] theorem State.setFB_st (fb : FrameBuffer) : (s.setFB fb).st = s.st := rfl
@[simp] theorem State.setFB_keys (fb : FrameBuffer) : (s.setFB fb).keys = s.keys := rfl
@[simp] theorem State.setFB_fb (fb : FrameBuffer) : (s.setFB fb).fb = fb := rfl
@[simp] theorem State.setFB_mem (fb : FrameBuffer) : (s.setFB fb).mem = s.mem := rfl
@[simp] theorem State.setFB_fault (fb : FrameBuffer) : (s.setFB fb).fault = s.fault := rfl
@[simp] theorem State.setFB_draws (fb : FrameBuffer) : (s.setFB fb).draws = s.draws := rfl
@[simp] theorem State.setFB_config (fb : FrameBuffer) : (s.setFB fb).config = s.config := rfl
@[simp] theorem State.setFB_byte (fb : FrameBuffer) (a : Nat) : (s.setFB fb).byte a = s.byte a := rfl
@[simp] theorem State.setFB_reg (fb : FrameBuffer) (r : Nibble) : (s.setFB fb).reg r = s.reg r := rfl
@[simp] theorem State.setFB_key (fb : FrameBuffer) (r : Nibble) : (s.setFB fb).key r = s.key r := rfl

/-! ### countDraw -/

@[simp] theorem State.countDraw_v : (s.countDraw).v = s.v := rfl
@[simp] theorem State.countDraw_i : (s.countDraw).i = s.i := rfl
@[simp] theorem State.countDraw_pc : (s.countDraw).pc = s.pc := rfl
@[simp] theorem State.countDraw_sp : (s.countDraw).sp = s.sp := rfl
@[simp] theorem State.countDraw_stack : (s.countDraw).stack = s.stack := rfl
@[simp] theorem State.countDraw_dt : (s.countDraw).dt = s.dt := rfl
@[simp] theorem State.countDraw_st : (s.countDraw).st = s.st := rfl
@[simp] theorem State.countDraw_keys : (s.countDraw).keys = s.keys := rfl
@[simp] theorem State.countDraw_fb : (s.countDraw).fb = s.fb := rfl
@[simp] theorem State.countDraw_mem : (s.countDraw).mem = s.mem := rfl
@[simp] theorem State.countDraw_fault : (s.countDraw).fault = s.fault := rfl
@[simp] theorem State.countDraw_draws : (s.countDraw).draws = s.draws + 1 := rfl
@[simp] theorem State.countDraw_config : (s.countDraw).config = s.config := rfl
@[simp] theorem State.countDraw_byte (a : Nat) : (s.countDraw).byte a = s.byte a := rfl
@[simp] theorem State.countDraw_reg (r : Nibble) : (s.countDraw).reg r = s.reg r := rfl
@[simp] theorem State.countDraw_key (r : Nibble) : (s.countDraw).key r = s.key r := rfl

/-! ### raise -/

@[simp] theorem State.raise_v (c : FaultCode) (op w : Word) : (s.raise c op w).v = s.v := rfl
@[simp] theorem State.raise_i (c : FaultCode) (op w : Word) : (s.raise c op w).i = s.i := rfl
@[simp] theorem State.raise_pc (c : FaultCode) (op w : Word) : (s.raise c op w).pc = s.pc := rfl
@[simp] theorem State.raise_sp (c : FaultCode) (op w : Word) : (s.raise c op w).sp = s.sp := rfl
@[simp] theorem State.raise_stack (c : FaultCode) (op w : Word) : (s.raise c op w).stack = s.stack := rfl
@[simp] theorem State.raise_dt (c : FaultCode) (op w : Word) : (s.raise c op w).dt = s.dt := rfl
@[simp] theorem State.raise_st (c : FaultCode) (op w : Word) : (s.raise c op w).st = s.st := rfl
@[simp] theorem State.raise_keys (c : FaultCode) (op w : Word) : (s.raise c op w).keys = s.keys := rfl
@[simp] theorem State.raise_fb (c : FaultCode) (op w : Word) : (s.raise c op w).fb = s.fb := rfl
@[simp] theorem State.raise_mem (c : FaultCode) (op w : Word) : (s.raise c op w).mem = s.mem := rfl
@[simp] theorem State.raise_fault (c : FaultCode) (op w : Word) : (s.raise c op w).fault = { code := c, pc := s.pc, opcode := op, info := w } := rfl
@[simp] theorem State.raise_draws (c : FaultCode) (op w : Word) : (s.raise c op w).draws = s.draws := rfl
@[simp] theorem State.raise_config (c : FaultCode) (op w : Word) : (s.raise c op w).config = s.config := rfl
@[simp] theorem State.raise_byte (c : FaultCode) (op w : Word) (a : Nat) : (s.raise c op w).byte a = s.byte a := rfl
@[simp] theorem State.raise_reg (c : FaultCode) (op w : Word) (r : Nibble) : (s.raise c op w).reg r = s.reg r := rfl
@[simp] theorem State.raise_key (c : FaultCode) (op w : Word) (r : Nibble) : (s.raise c op w).key r = s.key r := rfl

/-! ### storeBytes -/

@[simp] theorem State.storeBytes_mem (a : Nat) (bytes : List Byte) :
    (s.storeBytes a bytes).mem = Memory.writeRange s.config.glyphRom s.mem a bytes := rfl
@[simp] theorem State.storeBytes_v (a : Nat) (bytes : List Byte) : (s.storeBytes a bytes).v = s.v := rfl
@[simp] theorem State.storeBytes_i (a : Nat) (bytes : List Byte) : (s.storeBytes a bytes).i = s.i := rfl
@[simp] theorem State.storeBytes_pc (a : Nat) (bytes : List Byte) : (s.storeBytes a bytes).pc = s.pc := rfl
@[simp] theorem State.storeBytes_sp (a : Nat) (bytes : List Byte) : (s.storeBytes a bytes).sp = s.sp := rfl
@[simp] theorem State.storeBytes_stack (a : Nat) (bytes : List Byte) : (s.storeBytes a bytes).stack = s.stack := rfl
@[simp] theorem State.storeBytes_dt (a : Nat) (bytes : List Byte) : (s.storeBytes a bytes).dt = s.dt := rfl
@[simp] theorem State.storeBytes_st (a : Nat) (bytes : List Byte) : (s.storeBytes a bytes).st = s.st := rfl
@[simp] theorem State.storeBytes_keys (a : Nat) (bytes : List Byte) : (s.storeBytes a bytes).keys = s.keys := rfl
@[simp] theorem State.storeBytes_fb (a : Nat) (bytes : List Byte) : (s.storeBytes a bytes).fb = s.fb := rfl
@[simp] theorem State.storeBytes_fault (a : Nat) (bytes : List Byte) : (s.storeBytes a bytes).fault = s.fault := rfl
@[simp] theorem State.storeBytes_draws (a : Nat) (bytes : List Byte) : (s.storeBytes a bytes).draws = s.draws := rfl
@[simp] theorem State.storeBytes_config (a : Nat) (bytes : List Byte) : (s.storeBytes a bytes).config = s.config := rfl
@[simp] theorem State.storeBytes_reg (a : Nat) (bytes : List Byte) (r : Nibble) : (s.storeBytes a bytes).reg r = s.reg r := rfl
@[simp] theorem State.storeBytes_key (a : Nat) (bytes : List Byte) (r : Nibble) : (s.storeBytes a bytes).key r = s.key r := rfl

/-! ### writeBlock -/

@[simp] theorem State.writeBlock_v (bytes : List Byte) : (s.writeBlock bytes).v = s.v := rfl
@[simp] theorem State.writeBlock_i (bytes : List Byte) : (s.writeBlock bytes).i = s.i := rfl
@[simp] theorem State.writeBlock_pc (bytes : List Byte) : (s.writeBlock bytes).pc = s.pc := rfl
@[simp] theorem State.writeBlock_sp (bytes : List Byte) : (s.writeBlock bytes).sp = s.sp := rfl
@[simp] theorem State.writeBlock_stack (bytes : List Byte) : (s.writeBlock bytes).stack = s.stack := rfl
@[simp] theorem State.writeBlock_dt (bytes : List Byte) : (s.writeBlock bytes).dt = s.dt := rfl
@[simp] theorem State.writeBlock_st (bytes : List Byte) : (s.writeBlock bytes).st = s.st := rfl
@[simp] theorem State.writeBlock_keys (bytes : List Byte) : (s.writeBlock bytes).keys = s.keys := rfl
@[simp] theorem State.writeBlock_fb (bytes : List Byte) : (s.writeBlock bytes).fb = s.fb := rfl
@[simp] theorem State.writeBlock_mem (bytes : List Byte) : (s.writeBlock bytes).mem = Memory.writeRange s.config.glyphRom s.mem (s.dataAddr 0) bytes := rfl
@[simp] theorem State.writeBlock_fault (bytes : List Byte) : (s.writeBlock bytes).fault = s.fault := rfl
@[simp] theorem State.writeBlock_draws (bytes : List Byte) : (s.writeBlock bytes).draws = s.draws := rfl
@[simp] theorem State.writeBlock_config (bytes : List Byte) : (s.writeBlock bytes).config = s.config := rfl
@[simp] theorem State.writeBlock_reg (bytes : List Byte) (r : Nibble) : (s.writeBlock bytes).reg r = s.reg r := rfl
@[simp] theorem State.writeBlock_key (bytes : List Byte) (r : Nibble) : (s.writeBlock bytes).key r = s.key r := rfl

/-! ### setResultAndFlag -/

@[simp] theorem State.setResultAndFlag_v (x : Nibble) (b f : Byte) : (s.setResultAndFlag x b f).v = (s.v.set x.toNat b x.isLt).set 15 f := rfl
@[simp] theorem State.setResultAndFlag_i (x : Nibble) (b f : Byte) : (s.setResultAndFlag x b f).i = s.i := rfl
@[simp] theorem State.setResultAndFlag_pc (x : Nibble) (b f : Byte) : (s.setResultAndFlag x b f).pc = s.pc + 2 := rfl
@[simp] theorem State.setResultAndFlag_sp (x : Nibble) (b f : Byte) : (s.setResultAndFlag x b f).sp = s.sp := rfl
@[simp] theorem State.setResultAndFlag_stack (x : Nibble) (b f : Byte) : (s.setResultAndFlag x b f).stack = s.stack := rfl
@[simp] theorem State.setResultAndFlag_dt (x : Nibble) (b f : Byte) : (s.setResultAndFlag x b f).dt = s.dt := rfl
@[simp] theorem State.setResultAndFlag_st (x : Nibble) (b f : Byte) : (s.setResultAndFlag x b f).st = s.st := rfl
@[simp] theorem State.setResultAndFlag_keys (x : Nibble) (b f : Byte) : (s.setResultAndFlag x b f).keys = s.keys := rfl
@[simp] theorem State.setResultAndFlag_fb (x : Nibble) (b f : Byte) : (s.setResultAndFlag x b f).fb = s.fb := rfl
@[simp] theorem State.setResultAndFlag_mem (x : Nibble) (b f : Byte) : (s.setResultAndFlag x b f).mem = s.mem := rfl
@[simp] theorem State.setResultAndFlag_fault (x : Nibble) (b f : Byte) : (s.setResultAndFlag x b f).fault = s.fault := rfl
@[simp] theorem State.setResultAndFlag_draws (x : Nibble) (b f : Byte) : (s.setResultAndFlag x b f).draws = s.draws := rfl
@[simp] theorem State.setResultAndFlag_config (x : Nibble) (b f : Byte) : (s.setResultAndFlag x b f).config = s.config := rfl
@[simp] theorem State.setResultAndFlag_byte (x : Nibble) (b f : Byte) (a : Nat) : (s.setResultAndFlag x b f).byte a = s.byte a := rfl
@[simp] theorem State.setResultAndFlag_key (x : Nibble) (b f : Byte) (r : Nibble) : (s.setResultAndFlag x b f).key r = s.key r := rfl

end Sys2Proof.Machine
end

