-- ==== Sys2Proof/Laws/Display.lean ====
section
/-! SUPPORT. The sprite-draw engine: which pixels it inverts and when it reports a collision (43_display.md R131, R133). -/

namespace Sys2Proof.Machine

theorem FrameBuffer.pixel_setPixel (fb : FrameBuffer) (y y' : Fin 32) (x x' : Fin 64) (on : Bool) :
    (fb.setPixel y x on).pixel y' x' = if y' = y ∧ x' = x then on else fb.pixel y' x' := by
  obtain ⟨y, hy⟩ := y
  obtain ⟨y', hy'⟩ := y'
  obtain ⟨x, hx⟩ := x
  obtain ⟨x', hx'⟩ := x'
  simp only [FrameBuffer.pixel, FrameBuffer.setPixel, Fin.mk.injEq]
  by_cases h : y = y'
  · subst h
    by_cases h' : x = x'
    · subst h'; simp
    · simp [Vector.getElem_set_ne _ _ h', Ne.symm h']
  · simp [Vector.getElem_set_ne _ _ h, Ne.symm h]

theorem FrameBuffer.pixel_clear (y : Fin 32) (x : Fin 64) : FrameBuffer.clear.pixel y x = false := by
  simp [FrameBuffer.pixel, FrameBuffer.clear]

theorem FrameBuffer.ext_pixel {fb fb' : FrameBuffer} (h : ∀ y x, fb.pixel y x = fb'.pixel y x) : fb = fb' := by
  ext y hy x hx
  exact h ⟨y, hy⟩ ⟨x, hx⟩

/-- One cell of a sprite: its target pixel and its bit. -/
abbrev SpriteCell := (Fin 32 × Fin 64) × Bool

/-- XOR one cell in; `plotBit` is this on its own cell. -/
def plotCell (acc : FrameBuffer × Bool) (cell : SpriteCell) : FrameBuffer × Bool :=
  (acc.1.setPixel cell.1.1 cell.1.2 (acc.1.pixel cell.1.1 cell.1.2 ^^ cell.2),
    acc.2 || (cell.2 && acc.1.pixel cell.1.1 cell.1.2))

/-- The cells of the rows from row number `row` on, in drawing order. -/
def spriteCells (x0 y0 : Byte) : Nat → List Byte → List SpriteCell
  | _, [] => []
  | row, b :: rest =>
    (List.range 8).map (fun col => ((wrapY y0 row, wrapX x0 col), spriteBit b col)) ++ spriteCells x0 y0 (row + 1) rest

theorem plotRows_eq_foldl (x0 y0 : Byte) (row : Nat) (bytes : List Byte) (acc : FrameBuffer × Bool) :
    plotRows x0 y0 row bytes acc = (spriteCells x0 y0 row bytes).foldl plotCell acc := by
  induction bytes generalizing row acc with
  | nil => rfl
  | cons b rest ih =>
    rw [plotRows, ih, spriteCells, List.foldl_append, List.foldl_map]
    rfl

theorem foldl_plotCell (cells : List SpriteCell) (acc : FrameBuffer × Bool)
    (hd : cells.Pairwise fun c d => c.1 ≠ d.1) (y : Fin 32) (x : Fin 64) :
    (cells.foldl plotCell acc).1.pixel y x = (acc.1.pixel y x ^^ decide (((y, x), true) ∈ cells)) ∧
      ((cells.foldl plotCell acc).2 = true ↔
        acc.2 = true ∨ ∃ p : Fin 32 × Fin 64, (p, true) ∈ cells ∧ acc.1.pixel p.1 p.2 = true) := by
  induction cells generalizing acc with
  | nil => simp
  | cons cell rest ih =>
    obtain ⟨⟨cy, cx⟩, bit⟩ := cell
    rw [List.pairwise_cons] at hd
    have fresh : ∀ b, ((cy, cx), b) ∉ rest := fun b hb => hd.1 _ hb rfl
    have keep : ∀ p : Fin 32 × Fin 64, (p, true) ∈ rest →
        (plotCell acc ((cy, cx), bit)).1.pixel p.1 p.2 = acc.1.pixel p.1 p.2 := fun p hp => by
      have hne : ¬(p.1 = cy ∧ p.2 = cx) := fun ⟨h1, h2⟩ => fresh true (by rw [← h1, ← h2]; exact hp)
      simp only [plotCell, FrameBuffer.pixel_setPixel, hne, ↓reduceIte]
    obtain ⟨ih1, ih2⟩ := ih (plotCell acc ((cy, cx), bit)) hd.2
    rw [List.foldl_cons]
    constructor
    · rw [ih1]
      simp only [plotCell, FrameBuffer.pixel_setPixel]
      by_cases h : y = cy ∧ x = cx
      · obtain ⟨rfl, rfl⟩ := h
        simp [fresh]
      · have : ((y, x), true) ≠ ((cy, cx), bit) := fun e => h (by simpa using congrArg Prod.fst e)
        simp only [h, ↓reduceIte, List.mem_cons, this, false_or]
    · rw [ih2]
      have head : (plotCell acc ((cy, cx), bit)).2 = true ↔ acc.2 = true ∨ (bit = true ∧ acc.1.pixel cy cx = true) := by
        simp [plotCell]
      rw [head]
      constructor
      · rintro ((h | ⟨rfl, h⟩) | ⟨p, hp, h⟩)
        · exact .inl h
        · exact .inr ⟨(cy, cx), by simp, h⟩
        · exact .inr ⟨p, by simp [hp], by rw [← keep p hp]; exact h⟩
      · rintro (h | ⟨p, hp, h⟩)
        · exact .inl (.inl h)
        · rcases List.mem_cons.mp hp with e | hp
          · obtain ⟨rfl, rfl⟩ := Prod.mk.inj e
            exact .inl (.inr ⟨rfl, h⟩)
          · exact .inr ⟨p, hp, by rw [keep p hp]; exact h⟩

/-- The sprite bytes, row `r` of them drawn at screen row `y0 + row + r`, have a 1 bit over pixel `(y, x)` (R133: `S`). -/
def SpriteCovers (x0 y0 : Byte) (row : Nat) (bytes : List Byte) (y : Fin 32) (x : Fin 64) : Prop :=
  ∃ r col, r < bytes.length ∧ col < 8 ∧ spriteBit (bytes.getD r 0) col = true ∧
    wrapY y0 (row + r) = y ∧ wrapX x0 col = x

theorem mem_spriteCells (x0 y0 : Byte) (row : Nat) (bytes : List Byte) (y : Fin 32) (x : Fin 64) :
    ((y, x), true) ∈ spriteCells x0 y0 row bytes ↔ SpriteCovers x0 y0 row bytes y x := by
  induction bytes generalizing row with
  | nil => simp [spriteCells, SpriteCovers]
  | cons b rest ih =>
    simp only [spriteCells, List.mem_append, List.mem_map, List.mem_range, Prod.mk.injEq, ih]
    constructor
    · rintro (⟨col, hc, ⟨hy, hx⟩, hb⟩ | ⟨r, col, hr, hc, hb, hy, hx⟩)
      · exact ⟨0, col, by simp, hc, by simpa using hb, hy, hx⟩
      · exact ⟨r + 1, col, by simpa using hr, hc, by simpa using hb, by rw [← hy]; congr 1; omega, hx⟩
    · rintro ⟨r, col, hr, hc, hb, hy, hx⟩
      cases r with
      | zero => exact .inl ⟨col, hc, ⟨hy, hx⟩, by simpa using hb⟩
      | succ r =>
        exact .inr ⟨r, col, by simpa using hr, hc, by simpa using hb, by rw [← hy]; congr 1; omega, hx⟩

theorem target_of_mem_spriteCells {x0 y0 : Byte} {row : Nat} {bytes : List Byte} {c : SpriteCell}
    (h : c ∈ spriteCells x0 y0 row bytes) :
    ∃ r, r < bytes.length ∧ c.1.1 = wrapY y0 (row + r) := by
  induction bytes generalizing row with
  | nil => simp [spriteCells] at h
  | cons b rest ih =>
    rcases List.mem_append.mp h with h | h
    · obtain ⟨col, -, rfl⟩ := List.mem_map.mp h
      exact ⟨0, by simp, rfl⟩
    · obtain ⟨r, hr, e⟩ := ih h
      exact ⟨r + 1, by simpa using hr, by rw [e]; congr 1; omega⟩

/-- "The 8 columns and up to 15 rows of one sprite land on distinct pixels" (R131 (d)). -/
theorem pairwise_spriteCells (x0 y0 : Byte) (row : Nat) (bytes : List Byte) (h : bytes.length ≤ 32) :
    (spriteCells x0 y0 row bytes).Pairwise fun c d => c.1 ≠ d.1 := by
  induction bytes generalizing row with
  | nil => exact List.Pairwise.nil
  | cons b rest ih =>
    simp only [List.length_cons] at h
    rw [spriteCells, List.pairwise_append]
    refine ⟨?_, ih (row + 1) (by omega), fun c hc d hd e => ?_⟩
    · rw [List.pairwise_map]
      refine List.pairwise_lt_range.imp_of_mem fun {c d} hc hd hlt e => ?_
      have hc' := List.mem_range.mp hc
      have hd' := List.mem_range.mp hd
      have e' : (x0.toNat + c) % 64 = (x0.toNat + d) % 64 := congrArg Fin.val (congrArg Prod.snd e)
      omega
    · obtain ⟨col, -, rfl⟩ := List.mem_map.mp hc
      obtain ⟨r, hr, e'⟩ := target_of_mem_spriteCells hd
      have : (y0.toNat + row) % 32 = (y0.toNat + (row + 1 + r)) % 32 :=
        congrArg Fin.val ((congrArg Prod.fst e).trans e')
      omega

/-- The law of the draw engine (R133): a pixel under a 1 bit is inverted. -/
theorem pixel_plotRows_of_covers (x0 y0 : Byte) (row : Nat) (bytes : List Byte) (acc : FrameBuffer × Bool)
    (h : bytes.length ≤ 32) (y : Fin 32) (x : Fin 64) (hc : SpriteCovers x0 y0 row bytes y x) :
    (plotRows x0 y0 row bytes acc).1.pixel y x = !acc.1.pixel y x := by
  rw [plotRows_eq_foldl, (foldl_plotCell _ _ (pairwise_spriteCells x0 y0 row bytes h) y x).1,
    decide_eq_true ((mem_spriteCells ..).mpr hc), Bool.xor_true]

/-- The law of the draw engine (R133): every other pixel is unchanged. -/
theorem pixel_plotRows_of_not_covers (x0 y0 : Byte) (row : Nat) (bytes : List Byte) (acc : FrameBuffer × Bool)
    (h : bytes.length ≤ 32) (y : Fin 32) (x : Fin 64) (hc : ¬SpriteCovers x0 y0 row bytes y x) :
    (plotRows x0 y0 row bytes acc).1.pixel y x = acc.1.pixel y x := by
  rw [plotRows_eq_foldl, (foldl_plotCell _ _ (pairwise_spriteCells x0 y0 row bytes h) y x).1,
    decide_eq_false (mt (mem_spriteCells ..).mp hc), Bool.xor_false]

/-- The law of the collision (R133): some pixel under a 1 bit was set before. -/
theorem hit_plotRows (x0 y0 : Byte) (row : Nat) (bytes : List Byte) (fb : FrameBuffer) (h : bytes.length ≤ 32) :
    (plotRows x0 y0 row bytes (fb, false)).2 = true ↔
      ∃ y x, SpriteCovers x0 y0 row bytes y x ∧ fb.pixel y x = true := by
  rw [plotRows_eq_foldl, (foldl_plotCell _ _ (pairwise_spriteCells x0 y0 row bytes h) 0 0).2]
  simp [mem_spriteCells]

end Sys2Proof.Machine
end

