-- ==== Sys2Proof/Laws/Memory.lean ====
section
/-! SUPPORT. Memory: a read after a write, every other address left alone, and the canonical form kept. -/

namespace Sys2Proof.Machine

variable (rom : Vector Byte 80)

theorem Memory.read_insert (m : Memory) (a c : Nat) (b : Byte) :
    Memory.read rom (Memory.insert m a b) c = if a = c then b else Memory.read rom m c := by
  induction m with
  | nil => simp [Memory.insert, Memory.read]
  | cons cell rest ih =>
    obtain ⟨k, d⟩ := cell
    simp only [Memory.insert]
    split
    · simp [Memory.read]
    · split
      · next h => subst h; simp only [Memory.read]; split <;> rfl
      · next h =>
        simp only [Memory.read, ih]
        split
        · next h' => subst h'; simp [h]
        · rfl

theorem Memory.read_erase (m : Memory) (a c : Nat) :
    Memory.read rom (Memory.erase m a) c = if a = c then Memory.unlisted rom a else Memory.read rom m c := by
  induction m with
  | nil => simp only [Memory.erase, List.filter_nil, Memory.read]; split <;> simp_all
  | cons cell rest ih =>
    obtain ⟨k, d⟩ := cell
    simp only [Memory.erase] at ih
    by_cases h : k = a
    · subst h
      simp only [Memory.erase, List.filter_cons, bne_self_eq_false, Bool.false_eq_true, ↓reduceIte, ih, Memory.read]
      split <;> simp_all
    · simp only [Memory.erase, List.filter_cons, Memory.read, ih, bne_iff_ne, ne_eq, h, not_false_eq_true, ↓reduceIte]
      split
      · next h' => subst h'; simp [Ne.symm h]
      · rfl

/-- The one law of a checked write: its address reads as the byte, every other address as before. -/
theorem Memory.read_write (m : Memory) (a c : Nat) (b : Byte) (ha : a < 4096) :
    Memory.read rom (Memory.write rom m a b) c = if a = c then b else Memory.read rom m c := by
  simp only [Memory.write, Config.memSize, ha, ↓reduceIte]
  split
  · next h => rw [Memory.read_erase, h]
  · exact Memory.read_insert rom m a c b

theorem Memory.read_write_ne (m : Memory) (a c : Nat) (b : Byte) (h : a ≠ c) :
    Memory.read rom (Memory.write rom m a b) c = Memory.read rom m c := by
  by_cases ha : a < 4096
  · simp [Memory.read_write rom m a c b ha, h]
  · simp [Memory.write, Config.memSize, ha]

/-- A block write: the `k`-th byte stands at `a + k`, every address outside the block reads as before. -/
theorem Memory.read_writeRange (m : Memory) (a c : Nat) (bytes : List Byte) (h : a + bytes.length ≤ 4096) :
    Memory.read rom (Memory.writeRange rom m a bytes) c =
      if a ≤ c ∧ c < a + bytes.length then bytes.getD (c - a) 0 else Memory.read rom m c := by
  induction bytes generalizing m a with
  | nil => simp only [Memory.writeRange, List.length_nil, Nat.add_zero]; rw [if_neg (by omega)]
  | cons b rest ih =>
    simp only [List.length_cons] at h
    rw [Memory.writeRange, ih (Memory.write rom m a b) (a + 1) (by omega), Memory.read_write rom m a c b (by omega)]
    simp only [List.length_cons]
    by_cases hc : a = c
    · subst hc
      rw [if_neg (by omega), if_pos rfl, if_pos (by omega)]; simp
    · by_cases hin : a + 1 ≤ c ∧ c < a + 1 + rest.length
      · rw [if_pos hin, if_pos (by omega)]
        obtain ⟨j, rfl⟩ : ∃ j, c = a + 1 + j := ⟨c - (a + 1), by omega⟩
        have h1 : a + 1 + j - (a + 1) = j := by omega
        have h2 : a + 1 + j - a = j + 1 := by omega
        simp [h1, h2]
      · rw [if_neg hin, if_neg hc, if_neg (by omega)]

/-! ### The same, as State reads and writes bytes -/

theorem State.byte_storeBytes (s : State) (a c : Nat) (bytes : List Byte) (h : a + bytes.length ≤ 4096) :
    (s.storeBytes a bytes).byte c = if a ≤ c ∧ c < a + bytes.length then bytes.getD (c - a) 0 else s.byte c :=
  Memory.read_writeRange s.config.glyphRom s.mem a c bytes h

theorem State.length_bytes (s : State) (a count : Nat) : (s.bytes a count).length = count := by
  simp [State.bytes]

theorem State.getD_bytes (s : State) (a count k : Nat) (h : k < count) : (s.bytes a count).getD k 0 = s.byte (a + k) := by
  simp [State.bytes, h]

theorem Memory.unlisted_of_lt (rom : Vector Byte 80) (a : Nat) (h : a < 80) : Memory.unlisted rom a = rom[a] := by
  simp [Memory.unlisted, h]

theorem Memory.unlisted_of_ge (rom : Vector Byte 80) (a : Nat) (h : 80 ≤ a) : Memory.unlisted rom a = 0 := by
  simp [Memory.unlisted, Nat.not_lt.mpr h]

/-! ### The canonical form -/

theorem Memory.wfFrom_mono (m : Memory) (lo lo' : Nat) (h : lo' ≤ lo) (hm : Memory.wfFrom rom lo m = true) :
    Memory.wfFrom rom lo' m = true := by
  cases m with
  | nil => rfl
  | cons cell rest =>
    obtain ⟨k, b⟩ := cell
    simp only [Memory.wfFrom, Bool.and_eq_true, decide_eq_true_eq] at hm ⊢
    exact ⟨⟨⟨by omega, hm.1.1.2⟩, hm.1.2⟩, hm.2⟩

theorem Memory.wfFrom_erase (m : Memory) (lo a : Nat) (hm : Memory.wfFrom rom lo m = true) :
    Memory.wfFrom rom lo (Memory.erase m a) = true := by
  induction m generalizing lo with
  | nil => rfl
  | cons cell rest ih =>
    obtain ⟨k, b⟩ := cell
    simp only [Memory.wfFrom, Bool.and_eq_true, decide_eq_true_eq] at hm
    simp only [Memory.erase, List.filter_cons] at ih ⊢
    split
    · simp only [Memory.wfFrom, Bool.and_eq_true, decide_eq_true_eq]
      exact ⟨hm.1, ih _ hm.2⟩
    · exact Memory.wfFrom_mono rom _ _ _ (by omega) (ih _ hm.2)

theorem Memory.wfFrom_insert (m : Memory) (lo a : Nat) (b : Byte) (hlo : lo ≤ a) (ha : a < Config.memSize)
    (hb : b ≠ Memory.unlisted rom a) (hm : Memory.wfFrom rom lo m = true) :
    Memory.wfFrom rom lo (Memory.insert m a b) = true := by
  induction m generalizing lo with
  | nil => simp [Memory.insert, Memory.wfFrom, hlo, ha, hb]
  | cons cell rest ih =>
    obtain ⟨k, c⟩ := cell
    simp only [Memory.wfFrom, Bool.and_eq_true, decide_eq_true_eq] at hm
    simp only [Memory.insert]
    split
    · simp only [Memory.wfFrom, Bool.and_eq_true, decide_eq_true_eq, bne_iff_ne, ne_eq]
      exact ⟨⟨⟨hlo, ha⟩, hb⟩, ⟨⟨by omega, hm.1.1.2⟩, by simpa using hm.1.2⟩, hm.2⟩
    · split
      · next h =>
        subst h
        simp only [Memory.wfFrom, Bool.and_eq_true, decide_eq_true_eq, bne_iff_ne, ne_eq]
        exact ⟨⟨⟨hlo, ha⟩, hb⟩, hm.2⟩
      · simp only [Memory.wfFrom, Bool.and_eq_true, decide_eq_true_eq]
        exact ⟨hm.1, ih (k + 1) (by omega) hm.2⟩

/-- Every memory operation keeps the canonical form: a single write. -/
theorem Memory.wf_write (m : Memory) (a : Nat) (b : Byte) (hm : Memory.wf rom m = true) :
    Memory.wf rom (Memory.write rom m a b) = true := by
  simp only [Memory.write]
  split
  · split
    · exact Memory.wfFrom_erase rom m 0 a hm
    · exact Memory.wfFrom_insert rom m 0 a b (Nat.zero_le _) ‹_› ‹_› hm
  · exact hm

/-- Every memory operation keeps the canonical form: a block write. -/
theorem Memory.wf_writeRange (m : Memory) (a : Nat) (bytes : List Byte) (hm : Memory.wf rom m = true) :
    Memory.wf rom (Memory.writeRange rom m a bytes) = true := by
  induction bytes generalizing m a with
  | nil => exact hm
  | cons b rest ih => exact ih _ _ (Memory.wf_write rom m a b hm)

/-- Reset memory is canonical, at every `GLYPH_ROM`. -/
theorem Memory.wf_reset (c : Config) : Memory.wf c.glyphRom (State.resetWith c).mem = true := rfl

end Sys2Proof.Machine
end

