-- ==== Sys2Proof/Laws/Registers.lean ====
section
/-! SUPPORT. What the register, block, stack and key operations do, one lemma each. -/

namespace Sys2Proof.Machine

/-! ### Registers -/

theorem State.reg_setReg (s : State) (x r : Nibble) (b : Byte) :
    (s.setReg x b).reg r = if r = x then b else s.reg r := by
  simp only [State.reg, State.setReg, Vector.getElem_set, BitVec.toNat_inj, eq_comm]

@[simp] theorem State.reg_setReg_same (s : State) (x : Nibble) (b : Byte) : (s.setReg x b).reg x = b := by
  simp [State.reg_setReg]

theorem State.reg_setFlag (s : State) (r : Nibble) (b : Byte) :
    (s.setFlag b).reg r = if r = vf then b else s.reg r := State.reg_setReg s vf r b

theorem State.reg_setResultAndFlag (s : State) (x r : Nibble) (b f : Byte) :
    (s.setResultAndFlag x b f).reg r = if r = vf then f else if r = x then b else s.reg r := by
  simp only [State.setResultAndFlag, State.advance_reg, State.reg_setFlag, State.reg_setReg]

theorem State.toNat_ofNat_lt {k : Nat} (h : k < 16) : (BitVec.ofNat 4 k).toNat = k := by
  simp [Nat.mod_eq_of_lt h]

theorem State.eq_ofNat_iff (r : Nibble) {k : Nat} (h : k < 16) : r = BitVec.ofNat 4 k ↔ r.toNat = k := by
  rw [← BitVec.toNat_inj, State.toNat_ofNat_lt h]

/-- load-block's loop: register `k + j` takes the `j`-th byte, every other register is as before. -/
theorem State.reg_setRegsFrom (s : State) (k : Nat) (bytes : List Byte) (r : Nibble) (h : k + bytes.length ≤ 16) :
    (s.setRegsFrom k bytes).reg r =
      if k ≤ r.toNat ∧ r.toNat < k + bytes.length then bytes.getD (r.toNat - k) 0 else s.reg r := by
  induction bytes generalizing s k with
  | nil => simp only [State.setRegsFrom, List.length_nil, Nat.add_zero]; rw [if_neg (by omega)]
  | cons b rest ih =>
    simp only [List.length_cons] at h
    rw [State.setRegsFrom, ih _ (k + 1) (by omega), State.reg_setReg]
    simp only [State.eq_ofNat_iff r (show k < 16 by omega), List.length_cons]
    by_cases hk : r.toNat = k
    · rw [if_neg (by omega), if_pos hk, if_pos (by omega)]; simp [hk]
    · by_cases hin : k + 1 ≤ r.toNat ∧ r.toNat < k + 1 + rest.length
      · rw [if_pos hin, if_pos (by omega)]
        obtain ⟨j, hj⟩ : ∃ j, r.toNat = k + 1 + j := ⟨r.toNat - (k + 1), by omega⟩
        have h1 : k + 1 + j - (k + 1) = j := by omega
        have h2 : k + 1 + j - k = j + 1 := by omega
        simp [hj, h1, h2]
      · rw [if_neg hin, if_neg hk, if_neg (by omega)]

/-- load-block's loop writes the register file only. -/
theorem State.setRegsFrom_eq (s : State) (k : Nat) (bytes : List Byte) :
    s.setRegsFrom k bytes = { s with v := (s.setRegsFrom k bytes).v } := by
  induction bytes generalizing s k with
  | nil => rfl
  | cons b rest ih => rw [State.setRegsFrom, ih]; rfl

theorem State.length_regsUpTo (s : State) (x : Nibble) : (s.regsUpTo x).length = x.toNat + 1 := by
  simp [State.regsUpTo]

theorem State.getD_regsUpTo (s : State) (x k : Nibble) (h : k ≤ x) : (s.regsUpTo x).getD k.toNat 0 = s.reg k := by
  have hk : k.toNat < x.toNat + 1 := Nat.lt_succ_of_le h
  simp [State.regsUpTo, hk]

/-! ### Blocks -/

/-- A block fits exactly when it is empty or its last address is at most 0xFFF (R46). -/
theorem State.blockFits_iff (s : State) (count : Nat) :
    s.blockFits count = true ↔ count = 0 ∨ s.i.toNat + count ≤ 4096 := by
  rcases count with _ | n
  · simp [State.blockFits]
  · simp [State.blockFits, State.dataAddr]
    omega

theorem State.toNat_firstBadAddr (s : State) : s.firstBadAddr.toNat = max s.i.toNat 0x1000 := by
  simp only [State.firstBadAddr]
  split
  · rw [Nat.max_eq_right (by omega)]; rfl
  · rw [Nat.max_eq_left (by omega)]

theorem State.getD_readBlock (s : State) (count k : Nat) (h : k < count) :
    (s.readBlock count).getD k 0 = s.byte (s.i.toNat + k) := by
  simp [State.readBlock, State.dataAddr, State.bytes, h]

theorem State.length_readBlock (s : State) (count : Nat) : (s.readBlock count).length = count := by
  simp [State.readBlock, State.bytes]

/-! ### The stack -/

theorem State.push_of_room (s : State) (w : Word) (h : s.sp.val < s.config.stackDepth.val) :
    s.push w = some { s with stack := s.stack.set s.sp.val w (by omega), sp := ⟨s.sp.val + 1, by omega⟩ } := by
  simp [State.push, h]

theorem State.push_of_full (s : State) (w : Word) (h : s.config.stackDepth.val ≤ s.sp.val) : s.push w = none := by
  simp [State.push, Nat.not_lt.mpr h]

theorem State.pop_of_live (s : State) (h : 0 < s.sp.val) :
    s.pop = some (s.stack[s.sp.val - 1]'(by omega), { s with sp := ⟨s.sp.val - 1, by omega⟩ }) := by
  simp [State.pop, h]

theorem State.pop_of_empty (s : State) (h : s.sp.val = 0) : s.pop = none := by
  simp [State.pop, h]

/-! ### Keys -/

theorem State.key_setKeyFlag (s : State) (k r : Nibble) (on : Bool) :
    (s.setKeyFlag k on).key r = if r = k then on else s.key r := by
  simp only [State.key, State.setKeyFlag, Vector.getElem_set, BitVec.toNat_inj, eq_comm]

theorem firstSetFrom_eq_none (k : Nat) (l : List Bool) : firstSetFrom k l = none ↔ ∀ b ∈ l, b = false := by
  induction l generalizing k with
  | nil => simp [firstSetFrom]
  | cons b rest ih => cases b <;> simp [firstSetFrom, ih]

theorem firstSetFrom_eq_some (k j : Nat) (l : List Bool) :
    firstSetFrom k l = some j ↔ k ≤ j ∧ l[j - k]? = some true ∧ ∀ i, i < j - k → l[i]? = some false := by
  induction l generalizing k with
  | nil => simp [firstSetFrom]
  | cons b rest ih =>
    cases b with
    | true =>
      simp only [firstSetFrom, ↓reduceIte, Option.some.injEq]
      constructor
      · rintro rfl; simp
      · rintro ⟨h1, -, h3⟩
        by_contra hne
        have := h3 0 (by omega)
        simp at this
    | false =>
      simp only [firstSetFrom, Bool.false_eq_true, ↓reduceIte, ih]
      constructor
      · rintro ⟨h1, h2, h3⟩
        have e : j - k = (j - (k + 1)) + 1 := by omega
        refine ⟨by omega, by rw [e]; simpa using h2, fun i hi => ?_⟩
        cases i with
        | zero => simp
        | succ i => simpa using h3 i (by omega)
      · rintro ⟨h1, h2, h3⟩
        have hne : j ≠ k := by rintro rfl; simp at h2
        have e : j - k = (j - (k + 1)) + 1 := by omega
        refine ⟨by omega, by rw [e] at h2; simpa using h2, fun i hi => ?_⟩
        simpa using h3 (i + 1) (by omega)

/-- No key is set exactly when every flag is false. -/
theorem State.firstKey_eq_none (s : State) : s.firstKey = none ↔ ∀ k, s.key k = false := by
  simp only [State.firstKey, Option.map_eq_none_iff, firstSetFrom_eq_none, State.key]
  constructor
  · intro h k
    exact h _ (by simp)
  · intro h b hb
    obtain ⟨i, hi, rfl⟩ := List.getElem_of_mem hb
    have hi' : i < 16 := by simpa using hi
    simpa [Nat.mod_eq_of_lt hi'] using h (BitVec.ofNat 4 i)

/-- The first key is the lowest set one (R143). -/
theorem State.firstKey_eq_some (s : State) (k : Nibble) :
    s.firstKey = some k ↔ s.key k = true ∧ ∀ j, j < k → s.key j = false := by
  have get : ∀ j : Nibble, s.keys.toList[j.toNat]? = some (s.key j) := fun j => by
    have hj := j.isLt
    simp [State.key]
  simp only [State.firstKey, Option.map_eq_some_iff, firstSetFrom_eq_some, Nat.sub_zero, Nat.zero_le, true_and]
  constructor
  · rintro ⟨j, ⟨h1, h2⟩, rfl⟩
    have hj : j < 16 := by
      by_contra hge
      rw [List.getElem?_eq_none (by simp; omega)] at h1
      cases h1
    have e : (BitVec.ofNat 4 j).toNat = j := State.toNat_ofNat_lt hj
    refine ⟨?_, fun i hi => ?_⟩
    · have := get (BitVec.ofNat 4 j)
      rw [e, h1] at this
      simpa using this.symm
    · have hi' : i.toNat < j := by rw [← e]; exact hi
      have := get i
      rw [h2 _ hi'] at this
      simpa using this.symm
  · rintro ⟨h1, h2⟩
    refine ⟨k.toNat, ⟨by rw [get, h1], fun i hi => ?_⟩, by simp⟩
    have hi' : i < 16 := by omega
    have := get (BitVec.ofNat 4 i)
    rw [State.toNat_ofNat_lt hi', h2 (BitVec.ofNat 4 i) (BitVec.lt_def.mpr (by rw [State.toNat_ofNat_lt hi']; exact hi))] at this
    exact this

end Sys2Proof.Machine
end

