-- ==== Sys2Proof/Laws/Frames.lean ====
section
/-! SUPPORT. Frames compose: what each operation changes, and frames of one operation after another. -/

namespace Sys2Proof.Safety

open Sys2Proof.Machine

theorem Part.Same.refl (p : Part) (s : State) : p.Same s s := by cases p <;> simp [Part.Same]

theorem Part.Same.trans {p : Part} {s t u : State} (h : p.Same s t) (h' : p.Same t u) : p.Same s u := by
  cases p <;> simp_all [Part.Same]

theorem OnlyChanges.refl (ps : List Part) (s : State) : OnlyChanges ps s s := fun p _ => Part.Same.refl p s

theorem OnlyChanges.mono {ps qs : List Part} {s t : State} (h : OnlyChanges ps s t) (hs : ∀ p ∈ ps, p ∈ qs) :
    OnlyChanges qs s t := fun p hp => h p fun hm => hp (hs p hm)

theorem OnlyChanges.trans {ps qs : List Part} {s t u : State} (h : OnlyChanges ps s t) (h' : OnlyChanges qs t u) :
    OnlyChanges (ps ++ qs) s u := fun p hp =>
  (h p fun hm => hp (List.mem_append_left qs hm)).trans (h' p fun hm => hp (List.mem_append_right ps hm))

section
variable (s : State)

theorem onlyChanges_setReg (x : Nibble) (b : Byte) : OnlyChanges [.v] s (s.setReg x b) := by
  intro p hp; cases p <;> simp_all [Part.Same]

theorem onlyChanges_setFlag (b : Byte) : OnlyChanges [.v] s (s.setFlag b) := onlyChanges_setReg s vf b

theorem onlyChanges_setI (w : Word) : OnlyChanges [.i] s (s.setI w) := by
  intro p hp; cases p <;> simp_all [Part.Same]

theorem onlyChanges_setPC (w : Word) : OnlyChanges [.pc] s (s.setPC w) := by
  intro p hp; cases p <;> simp_all [Part.Same]

theorem onlyChanges_advance : OnlyChanges [.pc] s s.advance := onlyChanges_setPC s _

theorem onlyChanges_skipIf (c : Bool) : OnlyChanges [.pc] s (s.skipIf c) := onlyChanges_setPC s _

theorem onlyChanges_setResultAndFlag (x : Nibble) (b f : Byte) :
    OnlyChanges [.v, .pc] s (s.setResultAndFlag x b f) := by
  intro p hp; cases p <;> simp_all [Part.Same]

theorem onlyChanges_setDT (b : Byte) : OnlyChanges [.dt] s (s.setDT b) := by
  intro p hp; cases p <;> simp_all [Part.Same]

theorem onlyChanges_setST (b : Byte) : OnlyChanges [.st] s (s.setST b) := by
  intro p hp; cases p <;> simp_all [Part.Same]

theorem onlyChanges_setKeyFlag (k : Nibble) (on : Bool) : OnlyChanges [.keys] s (s.setKeyFlag k on) := by
  intro p hp; cases p <;> simp_all [Part.Same]

theorem onlyChanges_setFB (fb : FrameBuffer) : OnlyChanges [.fb] s (s.setFB fb) := by
  intro p hp; cases p <;> simp_all [Part.Same]

theorem onlyChanges_countDraw : OnlyChanges [.draws] s s.countDraw := by
  intro p hp; cases p <;> simp_all [Part.Same]

theorem onlyChanges_raise (c : FaultCode) (op w : Word) : OnlyChanges [.fault] s (s.raise c op w) := by
  intro p hp; cases p <;> simp_all [Part.Same]

theorem onlyChanges_storeBytes (a : Nat) (bytes : List Byte) : OnlyChanges [.mem] s (s.storeBytes a bytes) := by
  intro p hp; cases p <;> simp_all [Part.Same]

/-- A store in bounds changes no byte outside its block. -/
theorem memoryKeptOutside_storeBytes (a : Nat) (bytes : List Byte) (h : a + bytes.length ≤ 4096) :
    MemoryKeptOutside a bytes.length s (s.storeBytes a bytes) := fun c hc => by
  rw [State.byte_storeBytes s a c bytes h, if_neg hc]

theorem onlyChanges_push {w : Word} {t : State} (h : s.push w = some t) : OnlyChanges [.stack, .sp] s t := by
  unfold State.push at h
  split at h
  · cases h; intro p hp; cases p <;> simp_all [Part.Same, State.reg, State.key, State.byte]
  · cases h

theorem onlyChanges_pop {w : Word} {t : State} (h : s.pop = some (w, t)) : OnlyChanges [.sp] s t := by
  unfold State.pop at h
  split at h
  · cases h; intro p hp; cases p <;> simp_all [Part.Same, State.reg, State.key, State.byte]
  · cases h

theorem onlyChanges_writeBlock (bytes : List Byte) : OnlyChanges [.mem] s (s.writeBlock bytes) := by
  intro p hp; cases p <;> simp_all [Part.Same]

theorem onlyChanges_setRegsFrom (k : Nat) (bytes : List Byte) : OnlyChanges [.v] s (s.setRegsFrom k bytes) := by
  rw [State.setRegsFrom_eq]
  intro p hp; cases p <;> simp_all [Part.Same, State.key, State.byte]

end

end Sys2Proof.Safety
end

