-- ==== Sys2Proof/Laws/PerInstr.lean ====
section
/-! SUPPORT. The family RowPattern of LAWS.json: an instruction's word carries its row's pattern (30_encoding.md R64, "a
word `op` selects a row when `op & mask = match`"). -/

namespace Sys2Proof.Laws.RowPattern

/-- The encoded word selects the instruction's own row of the opcode table. -/
def Statement (i : Instr) : Prop := encode i &&& rowMask i = rowMatch i

theorem sysNoop (nnn : Addr12) : Statement (.sysNoop nnn) := by
  simp only [Statement, encode, rowMask, rowMatch, and_F000]; simp

theorem clearScreen : Statement .clearScreen := by unfold Statement; decide

theorem ret : Statement .ret := by unfold Statement; decide

theorem jump (nnn : Addr12) : Statement (.jump nnn) := by
  simp only [Statement, encode, rowMask, rowMatch, and_F000]; simp

theorem call (nnn : Addr12) : Statement (.call nnn) := by
  simp only [Statement, encode, rowMask, rowMatch, and_F000]; simp

theorem skipEqByte (x : Nibble) (nn : Byte) : Statement (.skipEqByte x nn) := by
  simp only [Statement, encode, rowMask, rowMatch, and_F000]; simp

theorem skipNeByte (x : Nibble) (nn : Byte) : Statement (.skipNeByte x nn) := by
  simp only [Statement, encode, rowMask, rowMatch, and_F000]; simp

theorem skipEqReg (x y : Nibble) : Statement (.skipEqReg x y) := by
  simp only [Statement, encode, rowMask, rowMatch, and_F00F]; simp

theorem loadByte (x : Nibble) (nn : Byte) : Statement (.loadByte x nn) := by
  simp only [Statement, encode, rowMask, rowMatch, and_F000]; simp

theorem addByte (x : Nibble) (nn : Byte) : Statement (.addByte x nn) := by
  simp only [Statement, encode, rowMask, rowMatch, and_F000]; simp

theorem loadReg (x y : Nibble) : Statement (.loadReg x y) := by
  simp only [Statement, encode, rowMask, rowMatch, and_F00F]; simp

theorem orReg (x y : Nibble) : Statement (.orReg x y) := by
  simp only [Statement, encode, rowMask, rowMatch, and_F00F]; simp

theorem andReg (x y : Nibble) : Statement (.andReg x y) := by
  simp only [Statement, encode, rowMask, rowMatch, and_F00F]; simp

theorem xorReg (x y : Nibble) : Statement (.xorReg x y) := by
  simp only [Statement, encode, rowMask, rowMatch, and_F00F]; simp

theorem addReg (x y : Nibble) : Statement (.addReg x y) := by
  simp only [Statement, encode, rowMask, rowMatch, and_F00F]; simp

theorem sub (x y : Nibble) : Statement (.sub x y) := by
  simp only [Statement, encode, rowMask, rowMatch, and_F00F]; simp

theorem shiftRight (x y : Nibble) : Statement (.shiftRight x y) := by
  simp only [Statement, encode, rowMask, rowMatch, and_F00F]; simp

theorem subn (x y : Nibble) : Statement (.subn x y) := by
  simp only [Statement, encode, rowMask, rowMatch, and_F00F]; simp

theorem shiftLeft (x y : Nibble) : Statement (.shiftLeft x y) := by
  simp only [Statement, encode, rowMask, rowMatch, and_F00F]; simp

theorem skipNeReg (x y : Nibble) : Statement (.skipNeReg x y) := by
  simp only [Statement, encode, rowMask, rowMatch, and_F00F]; simp

theorem loadIndex (nnn : Addr12) : Statement (.loadIndex nnn) := by
  simp only [Statement, encode, rowMask, rowMatch, and_F000]; simp

theorem jumpOffset (nnn : Addr12) : Statement (.jumpOffset nnn) := by
  simp only [Statement, encode, rowMask, rowMatch, and_F000]; simp

theorem random (x : Nibble) (nn : Byte) : Statement (.random x nn) := by
  simp only [Statement, encode, rowMask, rowMatch, and_F000]; simp

theorem draw (x y n : Nibble) : Statement (.draw x y n) := by
  simp only [Statement, encode, rowMask, rowMatch, and_F000]; simp

theorem skipKeyPressed (x : Nibble) : Statement (.skipKeyPressed x) := by
  simp only [Statement, encode, rowMask, rowMatch, and_F0FF]; simp

theorem skipKeyNotPressed (x : Nibble) : Statement (.skipKeyNotPressed x) := by
  simp only [Statement, encode, rowMask, rowMatch, and_F0FF]; simp

theorem loadDelay (x : Nibble) : Statement (.loadDelay x) := by
  simp only [Statement, encode, rowMask, rowMatch, and_F0FF]; simp

theorem awaitKey (x : Nibble) : Statement (.awaitKey x) := by
  simp only [Statement, encode, rowMask, rowMatch, and_F0FF]; simp

theorem storeDelay (x : Nibble) : Statement (.storeDelay x) := by
  simp only [Statement, encode, rowMask, rowMatch, and_F0FF]; simp

theorem loadSoundStore (x : Nibble) : Statement (.loadSoundStore x) := by
  simp only [Statement, encode, rowMask, rowMatch, and_F0FF]; simp

theorem addIndex (x : Nibble) : Statement (.addIndex x) := by
  simp only [Statement, encode, rowMask, rowMatch, and_F0FF]; simp

theorem fontAddress (x : Nibble) : Statement (.fontAddress x) := by
  simp only [Statement, encode, rowMask, rowMatch, and_F0FF]; simp

theorem storeBcd (x : Nibble) : Statement (.storeBcd x) := by
  simp only [Statement, encode, rowMask, rowMatch, and_F0FF]; simp

theorem storeBlock (x : Nibble) : Statement (.storeBlock x) := by
  simp only [Statement, encode, rowMask, rowMatch, and_F0FF]; simp

theorem loadBlock (x : Nibble) : Statement (.loadBlock x) := by
  simp only [Statement, encode, rowMask, rowMatch, and_F0FF]; simp

end Sys2Proof.Laws.RowPattern
end

