-- ==== Sys2Proof/Laws/Step.lean ====
section
/-! SUPPORT. What one step can do, said once: the inversion of the cycle around exec. -/

namespace Sys2Proof.Machine

/-- If a step answers next, one of the four lines of R60 was taken. -/
theorem step_cases {s t : State} (h : step s = .next t) :
    (s.halted = true ∧ t = s) ∨
    (s.halted = false ∧ s.fetch s.pc = none ∧ t = s.raise .fetchOutOfBounds 0 0) ∨
    (∃ op e, s.halted = false ∧ s.fetch s.pc = some op ∧ decode op = .rejected e ∧
      t = s.raise .unknownOpcode op 0) ∨
    (∃ op i, s.halted = false ∧ s.fetch s.pc = some op ∧ decode op = .instr i ∧ s.pendingInstr = some i ∧
      exec i s = .next t) := by
  unfold step cycle at h
  split at h
  · next hh => cases h; exact .inl ⟨hh, rfl⟩
  · next hh =>
    have hh' : s.halted = false := by simpa using hh
    split at h
    · next hf => cases h; exact .inr (.inl ⟨hh', hf, rfl⟩)
    · next op hf =>
      split at h
      · next e hd => cases h; exact .inr (.inr (.inl ⟨op, e, hh', hf, hd, rfl⟩))
      · next i hd =>
        refine .inr (.inr (.inr ⟨op, i, hh', hf, hd, ?_, h⟩))
        simp [State.pendingInstr, hh', hf, hd]

/-- The instruction pending is the one the step executes. -/
theorem step_of_pendingInstr {s : State} {i : Instr} (h : s.pendingInstr = some i) : step s = exec i s := by
  unfold State.pendingInstr at h
  unfold step cycle
  split at h
  · cases h
  · next hh =>
    rw [if_neg hh]
    split at h
    · cases h
    · next op hf =>
      split at h
      · cases h
      · next j hd => cases h; rfl

theorem halted_eq_false_iff (s : State) : s.halted = false ↔ s.fault.code = .none := by
  simp [State.halted]

theorem halted_eq_true_iff (s : State) : s.halted = true ↔ s.fault.code ≠ .none := by
  simp [State.halted]

/-- The fetch of a word that is there (R43). -/
theorem State.fetch_of_le {s : State} {a : Word} (h : a.toNat ≤ 0xFFE) :
    s.fetch a = some (wordOfBytes (s.byte a.toNat) (s.byte (a.toNat + 1))) := by
  simp [State.fetch, Nat.not_lt.mpr h]

theorem State.fetch_of_gt {s : State} {a : Word} (h : a.toNat > 0xFFE) : s.fetch a = none := by
  simp [State.fetch, h]

end Sys2Proof.Machine
end

