-- ==== Sys2Proof/Tests/Slice0.lean ====
section
/-! SUPPORT. Tests of the model. Expected values are those of 95_test_vectors.md ("2.1" to "2.5" are its sections) and of
the tables of the rules named; `test_` theorems check the model, `witness_` theorems show that the hypotheses of a
statement can be met together. -/

namespace Sys2Proof.Tests

open Sys2Proof Sys2Proof.Machine Sys2Proof.Safety

/-! ## Helpers -/

/-- The state after one step. -/
def stepped (s : State) : State :=
  match step s with
  | .next t => t
  | .fault _ => s
  | .refused _ => s

/-- The state after one execution of `i`. -/
def executed (i : Instr) (s : State) : State :=
  match exec i s with
  | .next t => t
  | .fault _ => s
  | .refused _ => s

/-- One step of the instruction word `w`, placed where `s` fetches. -/
def ran (w : Word) (s : State) : State := stepped (s.placeAtPC w)

/-- The reset state with a register set. -/
def withReg (x : Nibble) (b : Byte) : State := State.reset.setReg x b

/-- The reset state with two registers set. -/
def withRegs (x : Nibble) (a : Byte) (y : Nibble) (b : Byte) : State := (withReg x a).setReg y b

/-- The reset state with bytes stored from `a` on and `I = a`. -/
def withData (a : Word) (bytes : List Byte) : State :=
  (State.reset.setI a).storeBytes a.toNat bytes

/-- Parameters other than the defaults of R5: a font of 0xAA bytes and a stack of two entries. -/
def otherConfig : Config := { glyphRom := Vector.replicate 80 0xAA, stackDepth := 2 }

/-- `n` return addresses saved, all of them `w`. -/
def nested (n : Fin 32) (w : Word) : State :=
  { State.reset with sp := n, stack := Vector.ofFn fun j : Fin 31 => if j.val < n.val then w else 0 }

/-- The number of set pixels. -/
def pixelCount (fb : FrameBuffer) : Nat := (fb.toList.map fun line => line.toList.count true).sum

/-- Code and address of the recorded fault, as the ports show them. -/
def faultOf (s : State) : Nat × Nat × Nat × Nat :=
  (s.fault.code.toBits.toNat, s.fault.pc.toNat, s.fault.opcode.toNat, s.fault.info.toNat)

/-! ## Well-formedness (R64 row 1, R65) -/

theorem test_sysNoop_00E0_is_ill_formed : ¬(Instr.sysNoop 0x0E0).WellFormed := by decide
theorem test_sysNoop_00EE_is_ill_formed : ¬(Instr.sysNoop 0x0EE).WellFormed := by decide
theorem test_sysNoop_00EF_is_well_formed : (Instr.sysNoop 0x0EF).WellFormed := by decide

/-! ## Decoding: the word of every row, its bits written out from the pattern column of R64 -/

theorem test_decode_sysNoop : decodeTableWord 16 0b0000_0010_0011_0100 = some (.sysNoop 0x234) := by decide
theorem test_decode_clearScreen : decodeTableWord 16 0b0000_0000_1110_0000 = some .clearScreen := by decide
theorem test_decode_ret : decodeTableWord 16 0b0000_0000_1110_1110 = some .ret := by decide
theorem test_decode_jump : decodeTableWord 16 0b0001_1010_1011_1100 = some (.jump 0xABC) := by decide
theorem test_decode_call : decodeTableWord 16 0b0010_0010_0000_1000 = some (.call 0x208) := by decide
theorem test_decode_skipEqByte : decodeTableWord 16 0b0011_0011_0010_1010 = some (.skipEqByte 3 0x2A) := by decide
theorem test_decode_skipNeByte : decodeTableWord 16 0b0100_0011_0010_1010 = some (.skipNeByte 3 0x2A) := by decide
theorem test_decode_skipEqReg : decodeTableWord 16 0b0101_0001_0010_0000 = some (.skipEqReg 1 2) := by decide
theorem test_decode_loadByte : decodeTableWord 16 0b0110_1010_0000_0111 = some (.loadByte 0xA 0x07) := by decide
theorem test_decode_addByte : decodeTableWord 16 0b0111_0001_1000_0010 = some (.addByte 1 0x82) := by decide
theorem test_decode_loadReg : decodeTableWord 16 0b1000_0001_0010_0000 = some (.loadReg 1 2) := by decide
theorem test_decode_orReg : decodeTableWord 16 0b1000_0001_0010_0001 = some (.orReg 1 2) := by decide
theorem test_decode_andReg : decodeTableWord 16 0b1000_0001_0010_0010 = some (.andReg 1 2) := by decide
theorem test_decode_xorReg : decodeTableWord 16 0b1000_0001_0010_0011 = some (.xorReg 1 2) := by decide
theorem test_decode_addReg : decodeTableWord 16 0b1000_0001_0010_0100 = some (.addReg 1 2) := by decide
theorem test_decode_sub : decodeTableWord 16 0b1000_0001_0010_0101 = some (.sub 1 2) := by decide
theorem test_decode_shiftRight : decodeTableWord 16 0b1000_0001_1111_0110 = some (.shiftRight 1 0xF) := by decide
theorem test_decode_subn : decodeTableWord 16 0b1000_0001_0010_0111 = some (.subn 1 2) := by decide
theorem test_decode_shiftLeft : decodeTableWord 16 0b1000_0001_0000_1110 = some (.shiftLeft 1 0) := by decide
theorem test_decode_skipNeReg : decodeTableWord 16 0b1001_0001_0010_0000 = some (.skipNeReg 1 2) := by decide
theorem test_decode_loadIndex : decodeTableWord 16 0b1010_0011_0000_0001 = some (.loadIndex 0x301) := by decide
theorem test_decode_jumpOffset : decodeTableWord 16 0b1011_0011_0000_0010 = some (.jumpOffset 0x302) := by decide
theorem test_decode_random : decodeTableWord 16 0b1100_0011_0000_1111 = some (.random 3 0x0F) := by decide
theorem test_decode_draw : decodeTableWord 16 0b1101_0000_0001_0101 = some (.draw 0 1 5) := by decide
theorem test_decode_skipKeyPressed : decodeTableWord 16 0b1110_0100_1001_1110 = some (.skipKeyPressed 4) := by decide
theorem test_decode_skipKeyNotPressed : decodeTableWord 16 0b1110_0100_1010_0001 = some (.skipKeyNotPressed 4) := by
  decide
theorem test_decode_loadDelay : decodeTableWord 16 0b1111_0001_0000_0111 = some (.loadDelay 1) := by decide
theorem test_decode_awaitKey : decodeTableWord 16 0b1111_0010_0000_1010 = some (.awaitKey 2) := by decide
theorem test_decode_storeDelay : decodeTableWord 16 0b1111_0011_0001_0101 = some (.storeDelay 3) := by decide
theorem test_decode_loadSoundStore : decodeTableWord 16 0b1111_0101_0001_1000 = some (.loadSoundStore 5) := by decide
theorem test_decode_addIndex : decodeTableWord 16 0b1111_0010_0001_1110 = some (.addIndex 2) := by decide
theorem test_decode_fontAddress : decodeTableWord 16 0b1111_1010_0010_1001 = some (.fontAddress 0xA) := by decide
theorem test_decode_storeBcd : decodeTableWord 16 0b1111_0110_0011_0011 = some (.storeBcd 6) := by decide
theorem test_decode_storeBlock : decodeTableWord 16 0b1111_0111_0101_0101 = some (.storeBlock 7) := by decide
theorem test_decode_loadBlock : decodeTableWord 16 0b1111_1000_0110_0101 = some (.loadBlock 8) := by decide

/-- R67 and 2.1, 2.2, 2.5: words that select no row. -/
theorem test_decode_rejects_reserved_words :
    ([0x5121, 0x9121, 0x8128, 0x812F, 0xE49F, 0xF108].map fun w => decodeTableWord 16 w) =
      [none, none, none, none, none, none] := by decide

/-- R61, R42: the high byte lies at the lower address. -/
theorem test_decode_reads_high_byte_first : decodeBytes [0x6A, 0x07, 0x12] = (.instr (.loadByte 0xA 0x07), [0x12]) := by
  decide
theorem test_decode_wants_two_bytes : decodeBytes [0x6A] = (.rejected .truncated, [0x6A]) := by decide

/-! ## Control transfer (2.1) -/

theorem test_sysNoop_advances : (ran 0x0234 State.reset).pc = 0x202 := by decide
theorem test_ret_adds_two :
    (ran 0x00EE { nested 1 0x202 with pc := 0x20E }).pc = 0x204 ∧ (ran 0x00EE (nested 1 0x202)).sp = 0 := by decide
theorem test_ret_underflow : faultOf (ran 0x00EE State.reset) = (3, 0x200, 0x00EE, 0) := by decide
theorem test_jump_to_self : ran 0x1200 State.reset = State.reset.placeAtPC 0x1200 := by decide
theorem test_jump_to_last_byte_then_fetch_faults :
    (ran 0x1FFF State.reset).pc = 0xFFF ∧ faultOf (stepped (ran 0x1FFF State.reset)) = (4, 0xFFF, 0, 0) := by decide
theorem test_call_saves_own_address :
    (ran 0x2208 { State.reset with pc := 0x202 }).stack[0] = 0x202 ∧
      (ran 0x2208 { State.reset with pc := 0x202 }).sp = 1 ∧
      (ran 0x2208 { State.reset with pc := 0x202 }).pc = 0x208 := by decide
theorem test_call_overflow :
    faultOf (ran 0x2200 (nested 16 0x200)) = (2, 0x200, 0x2200, 0) ∧ (ran 0x2200 (nested 15 0x200)).sp = 16 := by decide
theorem test_skipEqByte : (ran 0x332A (withReg 3 0x2A)).pc = 0x204 ∧ (ran 0x332A (withReg 3 0x2B)).pc = 0x202 := by decide
theorem test_skipNeByte : (ran 0x432A (withReg 3 0x2A)).pc = 0x202 ∧ (ran 0x432A (withReg 3 0)).pc = 0x204 := by decide
theorem test_skipEqReg : (ran 0x5120 (withRegs 1 7 2 7)).pc = 0x204 ∧ (ran 0x5120 (withRegs 1 7 2 8)).pc = 0x202 := by
  decide
theorem test_skipEqReg_strict : faultOf (ran 0x5121 State.reset) = (1, 0x200, 0x5121, 0) := by decide
theorem test_skipNeReg : (ran 0x9120 (withRegs 1 7 2 8)).pc = 0x204 ∧ (ran 0x9120 (withRegs 1 7 2 7)).pc = 0x202 := by
  decide
theorem test_jumpOffset_adds_V0 : (ran 0xB300 (withRegs 0 4 3 0x99)).pc = 0x304 := by decide
theorem test_jumpOffset_does_not_wrap : (ran 0xBFFF (withReg 0 0xFF)).pc = 0x10FE := by decide

/-! ## Registers (2.2) -/

theorem test_loadByte : (ran 0x6A07 State.reset).reg 0xA = 7 := by decide
theorem test_loadByte_into_VF : (ran 0x6F55 State.reset).reg 0xF = 0x55 := by decide
theorem test_addByte_wraps : (ran 0x7102 (withReg 1 0xFF)).reg 1 = 1 ∧ (ran 0x7102 (withReg 1 0xFF)).reg 0xF = 0 := by
  decide
theorem test_loadReg : (ran 0x8120 (withReg 2 0x5C)).reg 1 = 0x5C := by decide
theorem test_orReg_keeps_VF :
    (ran 0x8121 ((withRegs 1 0xF0 2 0x0F).setReg 0xF 1)).reg 1 = 0xFF ∧
      (ran 0x8121 ((withRegs 1 0xF0 2 0x0F).setReg 0xF 1)).reg 0xF = 1 := by decide
theorem test_andReg : (ran 0x8122 (withRegs 1 0xF3 2 0x3C)).reg 1 = 0x30 := by decide
theorem test_xorReg : (ran 0x8123 (withRegs 1 0xFF 2 0x0F)).reg 1 = 0xF0 := by decide
theorem test_xorReg_itself : (ran 0x8113 (withReg 1 0xA5)).reg 1 = 0 := by decide
theorem test_addReg_carry :
    (ran 0x8124 (withRegs 1 0xFF 2 1)).reg 1 = 0 ∧ (ran 0x8124 (withRegs 1 0xFF 2 1)).reg 0xF = 1 ∧
      (ran 0x8124 (withRegs 1 0x80 2 0x7F)).reg 0xF = 0 := by decide
theorem test_addReg_VF_operands :
    (ran 0x8F14 (withRegs 0xF 0xFF 1 2)).reg 0xF = 1 ∧ (ran 0x81F4 (withRegs 0xF 1 1 0xFF)).reg 1 = 0 ∧
      (ran 0x81F4 (withRegs 0xF 1 1 0xFF)).reg 0xF = 1 := by decide
theorem test_sub_borrow :
    (ran 0x8125 (withRegs 1 3 2 5)).reg 1 = 0xFE ∧ (ran 0x8125 (withRegs 1 3 2 5)).reg 0xF = 0 ∧
      (ran 0x8125 (withRegs 1 5 2 5)).reg 0xF = 1 := by decide
theorem test_sub_VF_destination : (ran 0x8F15 (withRegs 0xF 5 1 9)).reg 0xF = 0 := by decide
theorem test_shiftRight :
    (ran 0x81F6 (withReg 1 0x81)).reg 1 = 0x40 ∧ (ran 0x81F6 (withReg 1 0x81)).reg 0xF = 1 ∧
      (ran 0x8106 (withReg 1 0xFE)).reg 1 = 0x7F ∧ (ran 0x8106 (withReg 1 0xFE)).reg 0xF = 0 := by decide
theorem test_shiftRight_VF_destination : (ran 0x8F06 (withReg 0xF 3)).reg 0xF = 1 := by decide
theorem test_subn :
    (ran 0x8127 (withRegs 1 3 2 5)).reg 1 = 2 ∧ (ran 0x8127 (withRegs 1 3 2 5)).reg 0xF = 1 ∧
      (ran 0x8127 (withRegs 1 5 2 3)).reg 1 = 0xFE ∧ (ran 0x8127 (withRegs 1 5 2 3)).reg 0xF = 0 := by decide
theorem test_shiftLeft :
    (ran 0x810E (withReg 1 0x81)).reg 1 = 2 ∧ (ran 0x810E (withReg 1 0x81)).reg 0xF = 1 ∧
      (ran 0x810E (withReg 1 0x40)).reg 1 = 0x80 ∧ (ran 0x810E (withReg 1 0x40)).reg 0xF = 0 := by decide
theorem test_shiftLeft_VF_destination : (ran 0x8F0E (withReg 0xF 0x40)).reg 0xF = 0 := by decide
/-- Mask 0 makes every random byte 0; no test can expect a value of the free byte. -/
theorem test_random_advances : (ran 0xC30F State.reset).pc = 0x202 ∧ (ran 0xC30F State.reset).reg 0xF = 0 := by decide

/-! ## Index register and memory (2.3) -/

theorem test_loadIndex_clears_high_bits : (ran 0xAFFF (State.reset.setI 0xFFFF)).i = 0x0FFF := by decide
theorem test_addIndex_wraps : (ran 0xF21E ((withReg 2 2).setI 0xFFFF)).i = 1 := by decide
theorem test_addIndex_passes_0xFFF : (ran 0xF21E ((withReg 2 1).setI 0x0FFF)).i = 0x1000 := by decide
theorem test_fontAddress : (ran 0xFA29 (withReg 0xA 7)).i = 0x23 ∧ (ran 0xFA29 (withReg 0xA 0xFF)).i = 0x4FB := by decide
theorem test_storeBcd :
    (ran 0xF033 ((withReg 0 0xFF).setI 0x300)).bytes 0x300 3 = [2, 5, 5] ∧
      (ran 0xF033 ((withReg 0 0xC7).setI 0xFFD)).bytes 0xFFD 3 = [1, 9, 9] := by decide
theorem test_storeBcd_out_of_bounds :
    faultOf (ran 0xF033 { State.reset.setI 0xFFE with pc := 0x202 }) = (5, 0x202, 0xF033, 0x1000) ∧
      faultOf (ran 0xF033 (State.reset.setI 0x2000)) = (5, 0x200, 0xF033, 0x2000) := by decide
theorem test_storeBlock :
    (ran 0xF255 (((withRegs 0 0x11 1 0x22).setReg 2 0x33).setI 0x400)).bytes 0x400 4 =
      [0x11, 0x22, 0x33, 0] := by decide
theorem test_storeBlock_edge :
    (ran 0xF055 ((withReg 0 0x9A).setI 0xFFF)).byte 0xFFF = 0x9A ∧
      faultOf (ran 0xF155 ((withReg 0 0x9A).setI 0xFFF)) = (5, 0x200, 0xF155, 0x1000) := by decide
theorem test_loadBlock :
    (ran 0xF265 (withData 0x300 [2, 5, 4, 9])).regsUpTo 3 = [2, 5, 4, 0] ∧
      (ran 0xF265 (withData 0x300 [2, 5, 4, 9])).i = 0x300 := by decide
/-- R24: glyph 0 is at 0x000 after reset. -/
theorem test_loadBlock_glyph_zero : (ran 0xF465 State.reset).regsUpTo 4 = [0xF0, 0x90, 0x90, 0x90, 0xF0] := by decide

/-! ## Display (2.4) -/

theorem test_clearScreen :
    pixelCount (ran 0x00E0 { State.reset with fb := FrameBuffer.clear.setPixel 3 5 true }).fb = 0 := by decide
theorem test_draw_wraps :
    pixelCount (ran 0xD011 ((withData 0x300 [0xFF]).setReg 0 0x3C)).fb = 8 ∧
      (ran 0xD011 ((withData 0x300 [0xFF]).setReg 0 0x3C)).fb.pixel 0 63 = true ∧
      (ran 0xD011 ((withData 0x300 [0xFF]).setReg 0 0x3C)).fb.pixel 0 3 = true ∧
      (ran 0xD012 ((withData 0x300 [0x80, 0x80]).setReg 1 0x1F)).fb.pixel 0 0 = true := by decide
theorem test_draw_collides :
    (ran 0xD011 { withData 0x300 [0x80] with fb := FrameBuffer.clear.setPixel 0 0 true }).reg 0xF = 1 ∧
      (ran 0xD011 { withData 0x300 [0x80] with fb := FrameBuffer.clear.setPixel 0 0 true }).fb.pixel 0 0 = false ∧
      frameReady ({ withData 0x300 [0x80] with fb := FrameBuffer.clear }.placeAtPC 0xD011) = true := by decide

/-! ## Keys and timers (2.5) -/

theorem test_skipKeyPressed :
    (ran 0xE49E ((withReg 4 3).setKeyFlag 3 true)).pc = 0x204 ∧ (ran 0xE49E (withReg 4 3)).pc = 0x202 := by decide
theorem test_skipKeyPressed_range : faultOf (ran 0xE09E { withReg 0 0x10 with pc := 0x202 }) = (6, 0x202, 0xE09E, 0x10) := by
  decide
theorem test_skipKeyNotPressed :
    (ran 0xE4A1 ((withReg 4 3).setKeyFlag 3 true)).pc = 0x202 ∧ (ran 0xE4A1 (withReg 4 3)).pc = 0x204 := by decide
theorem test_loadDelay : (ran 0xF107 (State.reset.setDT 0x2C)).reg 1 = 0x2C := by decide
theorem test_awaitKey_waits : ran 0xF20A State.reset = State.reset.placeAtPC 0xF20A := by decide
theorem test_awaitKey_lowest_first :
    (ran 0xF20A ((State.reset.setKeyFlag 5 true).setKeyFlag 9 true)).reg 2 = 5 ∧
      (ran 0xF20A ((State.reset.setKeyFlag 5 true).setKeyFlag 9 true)).key 5 = false ∧
      (ran 0xF20A ((State.reset.setKeyFlag 5 true).setKeyFlag 9 true)).key 9 = true := by decide
theorem test_storeDelay : (ran 0xF015 (withReg 0 3)).dt = 3 := by decide
theorem test_loadSoundStore : (ran 0xF518 (withReg 5 5)).st = 5 := by decide
theorem test_tick_floor : timerPorts (tick (State.reset.setDT 1)) = (0, 0) := by decide
theorem test_setKey_levels : (setKey 3 false (setKey 3 true State.reset)).key 3 = false := by decide
/-- R24: the first and last glyph. -/
theorem test_glyph_bytes :
    State.reset.bytes 0 5 = [0xF0, 0x90, 0x90, 0x90, 0xF0] ∧ State.reset.bytes 0x4B 6 = [0xF0, 0x80, 0xF0, 0x80, 0x80, 0] := by decide
/-- R5: other values of the parameters are taken. -/
theorem test_other_parameters :
    faultOf (ran 0x2200 { State.resetWith otherConfig with sp := 2 }) = (2, 0x200, 0x2200, 0) ∧
      (ran 0x2200 { State.resetWith otherConfig with sp := 1 }).sp = 2 ∧
      (ran 0xF165 (State.resetWith otherConfig)).regsUpTo 2 = [0xAA, 0xAA, 0] ∧
      (resetCore (ran 0xF155 (State.resetWith otherConfig))).byte 0 = 0xAA := by decide
/-- E7: the image `00 E0 12 00` goes to 0x200 on, and `PC` is 0x202 after the clear-screen (conflict C13). -/
theorem test_load_program_then_step :
    (stepped (loadProgram [0x00, 0xE0, 0x12, 0x00] State.reset).1).pc = 0x202 := by decide

/-! ## Witnesses: reset, invariants, the step cycle -/

/-- A running state with a stack, a cell listed and keys set, whose step executes load-byte. -/
def busy : State := ((nested 3 0x456).placeAtPC 0x6A07).setKeyFlag 4 true

/-- A core halted by the word 0x5121. -/
def broken : State := ran 0x5121 State.reset

theorem busy_inv : Inv busy where
  memory := by unfold MemoryCanonical; decide
  flow := ⟨by decide, by decide, by decide, by decide⟩
  fault := ⟨by decide, by decide, by decide⟩

theorem broken_inv : Inv broken where
  memory := by unfold MemoryCanonical; decide
  flow := ⟨by decide, by decide, by decide, by decide⟩
  fault := ⟨by decide, by decide, .unknownOpcode 0x5121, by decide⟩

theorem witness_StepKeepsInvariant : ∃ s t, Inv s ∧ step s = .next t := ⟨busy, stepped busy, busy_inv, rfl⟩
theorem witness_StepKeepsInvariant_halted : ∃ s t, Inv s ∧ ¬Running s ∧ step s = .next t :=
  ⟨broken, stepped broken, broken_inv, by unfold Running; decide, rfl⟩
theorem witness_HostTransactionsKeepInvariant :
    ∃ (tr : Transaction) (s t : State), tr ≠ .step ∧ Inv s ∧ transact tr s = .next t :=
  ⟨.setKey 15 true, broken, setKey 15 true broken, by decide, broken_inv, rfl⟩
theorem witness_ReachableStatesMeetInvariant : Reachable (stepped (setKey 3 true State.reset)) :=
  ⟨Config.default, [.setKey 3 true, .step], rfl⟩

theorem witness_StepRunsDecodedInstruction_halted : ¬Running broken := by unfold Running; decide
theorem witness_StepRunsDecodedInstruction_fetch :
    Running { State.reset with pc := 0xFFF } ∧ ({ State.reset with pc := 0xFFF } : State).pc.toNat > 0xFFE := by
  unfold Running; decide
/-- At 0xFFE, the last address of an instruction. -/
def lastWord (w : Word) : State := { State.reset with pc := 0xFFE }.placeAtPC w
theorem witness_StepRunsDecodedInstruction_rejected :
    Running (lastWord 0x9121) ∧ (lastWord 0x9121).pc.toNat ≤ 0xFFE ∧
      (0x9121 : Word).toNat = ((lastWord 0x9121).byte (lastWord 0x9121).pc.toNat).toNat * 256 +
        ((lastWord 0x9121).byte ((lastWord 0x9121).pc.toNat + 1)).toNat ∧
      decode 0x9121 = .rejected (.unknownOpcode 0x9121) := by unfold Running; decide
theorem witness_StepRunsDecodedInstruction_runs :
    Running (lastWord 0x6A07) ∧ (lastWord 0x6A07).pc.toNat ≤ 0xFFE ∧
      (0x6A07 : Word).toNat = ((lastWord 0x6A07).byte (lastWord 0x6A07).pc.toNat).toNat * 256 +
        ((lastWord 0x6A07).byte ((lastWord 0x6A07).pc.toNat + 1)).toNat ∧
      decode 0x6A07 = .instr (.loadByte 0xA 7) := by unfold Running; decide
theorem witness_HaltedCoreOnlyTakesHostData :
    ¬Running broken ∧ Transaction.reset ∉ [Transaction.step, .tick, .setKey 0 true, .loadProgram [1]] := by
  unfold Running; decide
theorem witness_FaultsArePrecise : ∃ s t, Running s ∧ step s = .next t ∧ ¬Running t :=
  ⟨State.reset.placeAtPC 0x5121, broken, by unfold Running; decide, rfl, by unfold Running; decide⟩
theorem witness_FaultsArePrecise_fetch : ∃ s t, Running s ∧ step s = .next t ∧ ¬Running t ∧ s.pc.toNat > 0xFFE :=
  ⟨{ State.reset with pc := 0xFFF }, stepped { State.reset with pc := 0xFFF }, by unfold Running; decide, rfl,
    by unfold Running; decide, by decide⟩
theorem witness_StepFaultsExactlyOnListedCauses_runs : ∃ s t, Running s ∧ step s = .next t ∧ Running t :=
  ⟨busy, stepped busy, by unfold Running; decide, rfl, by unfold Running; decide⟩
theorem witness_StepFaultsExactlyOnListedCauses_faults :
    ∃ s t, Running s ∧ step s = .next t ∧ ¬Running t ∧ s.pendingInstr = some .ret ∧ ExecuteFault .ret s :=
  ⟨State.reset.placeAtPC 0x00EE, ran 0x00EE State.reset, by unfold Running; decide, rfl, by unfold Running; decide,
    by decide, by unfold ExecuteFault; decide⟩

/-! ## Witnesses: encoding -/

theorem witness_DecodeUndoesEncode : (Instr.sysNoop 0xFFF).WellFormed ∧ (Instr.draw 15 15 15).WellFormed := by decide
theorem witness_EncodeUndoesDecode : decode 0xFF65 = .instr (.loadBlock 15) := by decide
theorem witness_WordsSelectTheirRow_decoded : decode 0x800E = .instr (.shiftLeft 0 0) := by decide
theorem witness_WordsSelectTheirRow_selected : (0x80FE : Word) &&& rowMask (.shiftLeft 3 3) = rowMatch (.shiftLeft 3 3) := by
  decide
theorem witness_WordsSelectTheirRow_fixed_word : (0x00E0 : Word) &&& rowMask (.sysNoop 0) = rowMatch (.sysNoop 0) := by decide

/-! ## Witnesses: control transfer -/

theorem witness_SysNoopOnlyAdvances : (0x0E1 : Addr12) ≠ 0x0E0 ∧ (0x0E1 : Addr12) ≠ 0x0EE := by decide
theorem witness_CallSavesItsAddress :
    (nested 15 0x202).sp.val < (nested 15 0x202).config.stackDepth.val ∧
      State.reset.sp.val < State.reset.config.stackDepth.val := by decide
theorem witness_CallOverflowsWhenFull :
    (nested 16 0x202).config.stackDepth.val ≤ (nested 16 0x202).sp.val ∧
      otherConfig.stackDepth.val ≤ ({ State.resetWith otherConfig with sp := 2 } : State).sp.val := by decide
theorem witness_ReturnGoesPastTheCall :
    0 < (nested 1 0x202).sp.val ∧ (0 : Fin 31).val + 1 = (nested 1 0x202).sp.val ∧ 0 < (nested 16 0x202).sp.val ∧
      (15 : Fin 31).val + 1 = (nested 16 0x202).sp.val := by decide
theorem witness_ReturnUnderflowsWhenEmpty : State.reset.sp.val = 0 := by decide
theorem witness_ReturnResumesAfterItsCall :
    ∃ t u, (nested 15 0x202).sp.val < (nested 15 0x202).config.stackDepth.val ∧ exec (.call 0x300) (nested 15 0x202) = .next t ∧ u.sp = t.sp ∧
      (∀ j : Fin 31, j.val < t.sp.val → u.stack[j.val] = t.stack[j.val]) ∧ u ≠ t :=
  ⟨executed (.call 0x300) (nested 15 0x202), (executed (.call 0x300) (nested 15 0x202)).setReg 1 9, by decide, rfl, by decide,
    by decide, by decide⟩
theorem witness_RegisterSkipsCompare : (0xF : Nibble) ≠ 0 := by decide

/-! ## Witnesses: registers -/

theorem witness_register_frames : (1 : Nibble) ≠ 2 ∧ (1 : Nibble) ≠ vf ∧ (2 : Nibble) ≠ vf := by decide
theorem witness_RandomMasksTheFreeByte : (0x00 : Byte) = 0 ∧ (1 : Nibble) ≠ 2 := by decide
theorem witness_OthersIgnoreTheRandomByte :
    ∃ (i : Instr) (s t : State), (∀ x nn, i ≠ .random x nn) ∧ exec i s = .next t :=
  ⟨.awaitKey 2, busy, executed (.awaitKey 2) busy, fun _ _ h => Instr.noConfusion h, rfl⟩
theorem witness_RegistersReadAndWrittenPerTable_writes :
    ∃ t, exec (.loadBlock 3) busy = .next t ∧ writesReg (.loadBlock 3) 4 = false :=
  ⟨executed (.loadBlock 3) busy, rfl, by decide⟩
theorem witness_RegistersReadAndWrittenPerTable_awaitKey :
    ∃ t, (∀ k, State.reset.key k = false) ∧ exec (.awaitKey 2) State.reset = .next t :=
  ⟨State.reset, by decide, rfl⟩
theorem witness_RegistersReadAndWrittenPerTable_reads :
    ∃ t u, readsReg (.loadReg 1 2) 1 = false ∧ exec (.loadReg 1 2) busy = .next t ∧
      exec (.loadReg 1 2) (busy.setReg 1 0x77) = .next u :=
  ⟨executed (.loadReg 1 2) busy, executed (.loadReg 1 2) (busy.setReg 1 0x77), by decide, rfl, rfl⟩
theorem witness_RegistersReadAndWrittenPerTable_host :
    ∃ t, Transaction.tick ≠ .step ∧ Transaction.tick ≠ .reset ∧ transact .tick busy = .next t :=
  ⟨tick busy, by decide, by decide, rfl⟩
/-- Registers to store at 0x500. -/
def storing : State := (withRegs 0 0x12 1 0x06).setI 0x500
theorem witness_InstructionsChangeOnlyTheirParts_bcd : ∃ t, exec (.storeBcd 0) storing = .next t ∧ Running t :=
  ⟨executed (.storeBcd 0) storing, rfl, by unfold Running; decide⟩
theorem witness_InstructionsChangeOnlyTheirParts : ∃ t, exec (.storeBlock 15) busy = .next t :=
  ⟨executed (.storeBlock 15) busy, rfl⟩

/-! ## Witnesses: index register and memory -/

theorem witness_StoreBcdWritesDigits : (State.reset.setI 0xFFD).i.toNat + 2 ≤ 0xFFF := by decide
theorem witness_StoreBlockWritesRegisters :
    (State.reset.setI 0xFF0).i.toNat + (15 : Nibble).toNat ≤ 0xFFF ∧ (15 : Nibble) ≤ 15 ∧
      (State.reset.setI 0xFFF).i.toNat + (0 : Nibble).toNat ≤ 0xFFF ∧ (0 : Nibble) ≤ 0 := by decide
theorem witness_LoadBlockReadsRegisters :
    (State.reset.setI 0xFF1).i.toNat + (14 : Nibble).toNat ≤ 0xFFF ∧ (14 : Nibble) ≤ 14 ∧ (14 : Nibble) < 15 := by decide
theorem witness_BlocksBeyondMemoryTrap :
    (State.reset.setI 0xFFE).i.toNat + 2 > 0xFFF ∧ (State.reset.setI 0xFF1).i.toNat + (15 : Nibble).toNat > 0xFFF ∧
      (State.reset.setI 0x1000).i.toNat + (0 : Nibble).toNat > 0xFFF ∧
      0 < (2 : Nibble).toNat ∧ (State.reset.setI 0xFFF).i.toNat + (2 : Nibble).toNat - 1 > 0xFFF := by decide
theorem witness_LoadBlockUndoesStoreBlock :
    ∃ t u : State, storing.i.toNat + (15 : Nibble).toNat ≤ 0xFFF ∧ exec (.storeBlock 15) storing = .next t ∧
      (∀ a, u.byte a = t.byte a) ∧ u.i = t.i ∧ u.reg 0 ≠ storing.reg 0 :=
  ⟨executed (.storeBlock 15) storing, (executed (.storeBlock 15) storing).setReg 0 0x99, by decide, rfl, fun _ => rfl,
    rfl, by decide⟩
/-- Store-block over the next instruction word, as program P6 of part 3 one word on: the word `12 06` decodes. -/
theorem witness_StoreIsSeenByTheNextFetch :
    ∃ s t : State, Running s ∧ exec (.storeBlock 1) s = .next t ∧ Running t ∧ t.pc.toNat ≤ 0xFFE ∧
      decode (wordAfterStore (.storeBlock 1) s t.pc.toNat) = .instr (.jump 0x206) :=
  ⟨(withRegs 0 0x12 1 0x06).setI 0x202, executed (.storeBlock 1) ((withRegs 0 0x12 1 0x06).setI 0x202),
    by unfold Running; decide, rfl, by unfold Running; decide, by decide, by decide⟩
/-- Store-bcd whose last digit, 9, falls on the high byte of the next word: `09 00`, a sys-noop. -/
theorem witness_StoreIsSeenByTheNextFetch_overlap :
    ∃ s t : State, Running s ∧ exec (.storeBcd 0) s = .next t ∧ Running t ∧ t.pc.toNat ≤ 0xFFE ∧
      decode (wordAfterStore (.storeBcd 0) s t.pc.toNat) = .instr (.sysNoop 0x900) :=
  ⟨(withReg 0 0xC7).setI 0x200, executed (.storeBcd 0) ((withReg 0 0xC7).setI 0x200),
    by unfold Running; decide, rfl, by unfold Running; decide, by decide, by decide⟩
/-- Store-block of an unrecognised word. -/
theorem witness_StoreIsSeenByTheNextFetch_rejected :
    ∃ s t : State, Running s ∧ exec (.storeBlock 1) s = .next t ∧ Running t ∧ t.pc.toNat ≤ 0xFFE ∧
      decode (wordAfterStore (.storeBlock 1) s t.pc.toNat) = .rejected (.unknownOpcode 0x5121) :=
  ⟨(withRegs 0 0x51 1 0x21).setI 0x202, executed (.storeBlock 1) ((withRegs 0 0x51 1 0x21).setI 0x202),
    by unfold Running; decide, rfl, by unfold Running; decide, by decide, by decide⟩

/-! ## Witnesses: display -/

/-- A sprite row of one pixel at the last byte of memory. -/
def edgeSprite : State := withData 0xFFF [0x80]

theorem witness_DrawInvertsExactlyTheSprite_empty : SpriteInMemory (State.reset.setI 0xFFFF) 0 := .inl (by decide)
theorem witness_DrawInvertsExactlyTheSprite_last_byte : SpriteInMemory edgeSprite 1 := .inr (by decide)
theorem witness_DrawInvertsExactlyTheSprite_over : SpriteOver edgeSprite 0 1 1 0 0 :=
  ⟨0, 0, by decide, by decide, by decide, by decide, by decide⟩
theorem witness_DrawInvertsExactlyTheSprite_collision :
    SpriteInMemory { edgeSprite with fb := FrameBuffer.clear.setPixel 0 0 true } 1 ∧
      ∃ py px, SpriteOver { edgeSprite with fb := FrameBuffer.clear.setPixel 0 0 true } 0 1 1 py px ∧
        (FrameBuffer.clear.setPixel 0 0 true).pixel py px = true :=
  ⟨.inr (by decide), 0, 0, ⟨0, 0, by decide, by decide, by decide, by decide, by decide⟩, by decide⟩
theorem witness_DrawInvertsExactlyTheSprite_no_collision :
    SpriteInMemory edgeSprite 1 ∧ ∀ py px, SpriteOver edgeSprite 0 1 1 py px → edgeSprite.fb.pixel py px = false :=
  ⟨.inr (by decide), fun py px _ =>
    (by decide : ∀ py px, edgeSprite.fb.pixel py px = false) py px⟩
theorem witness_DrawingTwiceRestoresTheScreen :
    ∃ t u, SpriteInMemory edgeSprite 1 ∧ exec (.draw 0 1 1) edgeSprite = .next t ∧ exec (.draw 0 1 1) t = .next u ∧
      ((0 : Nibble) ≠ vf ∧ (1 : Nibble) ≠ vf) :=
  ⟨executed (.draw 0 1 1) edgeSprite, executed (.draw 0 1 1) (executed (.draw 0 1 1) edgeSprite), .inr (by decide), rfl, rfl,
    by decide, by decide⟩
theorem witness_DrawingTwiceRestoresTheScreen_VF :
    ∃ t u, SpriteInMemory edgeSprite 1 ∧ exec (.draw 15 1 1) edgeSprite = .next t ∧ exec (.draw 15 1 1) t = .next u ∧
      t.reg vf = edgeSprite.reg vf :=
  ⟨executed (.draw 15 1 1) edgeSprite, executed (.draw 15 1 1) (executed (.draw 15 1 1) edgeSprite), .inr (by decide), rfl, rfl,
    by decide⟩
theorem witness_FrameReadyExactlyOnCompletedDraw :
    ∃ s t, step s = .next t ∧ (respond .step s).frameReady = true ∧ s.pendingInstr = some (.draw 0 1 1) :=
  ⟨(withData 0x300 [0x80]).placeAtPC 0xD011, ran 0xD011 (withData 0x300 [0x80]), rfl, by decide, by decide⟩
theorem witness_FrameReadyExactlyOnCompletedDraw_other : Transaction.tick ≠ .step := by decide

/-! ## Witnesses: keys, timers, the host -/

theorem witness_KeySkipsTestTheFlag : ((withReg 4 15).reg 4).toNat = (15 : Nibble).toNat := by decide
theorem witness_KeySkipsBeyondFifteenTrap : ((withReg 4 16).reg 4).toNat > 15 := by decide
theorem witness_AwaitKeyTakesTheLowestKey_none : ∀ k, State.reset.key k = false := by decide
theorem witness_AwaitKeyTakesTheLowestKey_two :
    ((State.reset.setKeyFlag 5 true).setKeyFlag 9 true).key 5 = true ∧
      ∀ j, j < 5 → ((State.reset.setKeyFlag 5 true).setKeyFlag 9 true).key j = false := by decide
theorem witness_AwaitKeyPollsUntilAKeyIsSet :
    (State.reset.placeAtPC 0xF20A).pendingInstr = some (.awaitKey 2) ∧ ∀ j, (State.reset.placeAtPC 0xF20A).key j = false := by
  decide
theorem witness_SetKeySetsOneLevel :
    ∃ t, exec (.loadByte 1 2) busy = .next t ∧ (∀ x, Instr.loadByte 1 2 ≠ .awaitKey x) ∧ t.key 4 = true :=
  ⟨executed (.loadByte 1 2) busy, rfl, fun _ h => Instr.noConfusion h, by decide⟩
theorem witness_LoadProgramCopiesOrRefusesWhole :
    (List.replicate 3584 (0x60 : Byte)).length ≤ 3584 ∧ (List.replicate 3585 (0x60 : Byte)).length > 3584 := by
  simp only [List.length_replicate]; decide
/-- A core at `jump 0x200` at 0x200. -/
theorem witness_JumpToSelfNeverMovesOn :
    AtJumpToSelf (State.reset.placeAtPC 0x1200) ∧
      ∀ tr ∈ [Transaction.step, .tick, .setKey 3 true], tr = .step ∨ tr = .tick ∨ ∃ k on, tr = .setKey k on :=
  ⟨⟨by unfold Running; decide, 0x200, by decide, by decide⟩, by
    intro tr h
    simp only [List.mem_cons, List.not_mem_nil, or_false] at h
    rcases h with rfl | rfl | rfl
    · exact .inl rfl
    · exact .inr (.inl rfl)
    · exact .inr (.inr ⟨3, true, rfl⟩)⟩

/-! ## Witnesses: the configuration -/

theorem witness_ParametersNeverChange :
    ∃ t, runTransactions [.step, .reset, .tick] (State.resetWith otherConfig) = .next t := ⟨_, rfl⟩

end Sys2Proof.Tests
end

section
/-! SUPPORT. What one instruction can do, said once: it raises its one listed fault, or it completes within its frame. The
obligations over all instructions and over all runs rest on these lemmas. -/

namespace Sys2Proof.Machine

theorem State.fetch_eq_none_iff (s : State) (a : Word) : s.fetch a = none ↔ a.toNat > 0xFFE := by
  simp [State.fetch]

theorem State.push_mem {s u : State} {w : Word} (h : s.push w = some u) : u.mem = s.mem := by
  unfold State.push at h
  split at h <;> cases h
  rfl

theorem State.pop_mem {s u : State} {a : Word} (h : s.pop = some (a, u)) : u.mem = s.mem := by
  unfold State.pop at h
  split at h <;> cases h
  rfl

/-- A block write leaves every address outside the block as it was, in bounds or not. -/
theorem Memory.read_writeRange_outside (rom : Vector Byte 80) (m : Memory) (a c : Nat) (bytes : List Byte)
    (h : ¬(a ≤ c ∧ c < a + bytes.length)) :
    Memory.read rom (Memory.writeRange rom m a bytes) c = Memory.read rom m c := by
  induction bytes generalizing m a with
  | nil => rfl
  | cons b rest ih =>
    simp only [List.length_cons] at h
    rw [Memory.writeRange, ih _ (a + 1) (by omega), Memory.read_write_ne rom m a c b (by omega)]

end Sys2Proof.Machine

namespace Sys2Proof.Safety

open Sys2Proof.Machine

/-! ### The fault of an instruction (R151) -/

/-- The code an instruction raises when its `ExecuteFault` arises; `none` where no fault is listed. -/
def executeFaultCode : Instr → FaultCode
  | .call _ => .stackOverflow
  | .ret => .stackUnderflow
  | .draw _ _ _ | .storeBcd _ | .storeBlock _ | .loadBlock _ => .memoryOutOfBounds
  | .skipKeyPressed _ | .skipKeyNotPressed _ => .keyIndexOutOfRange
  | _ => .none

/-- The info an instruction records when its `ExecuteFault` arises. -/
def executeFaultInfo (i : Instr) (s : State) : Word :=
  match i with
  | .draw _ _ _ | .storeBcd _ | .storeBlock _ | .loadBlock _ => s.firstBadAddr
  | .skipKeyPressed x | .skipKeyNotPressed x => zextByte (s.reg x)
  | _ => 0

section
variable {s t : State}

theorem executeFault_draw_iff {x y n : Nibble} : ExecuteFault (.draw x y n) s ↔ ¬s.blockFits n.toNat = true := by
  rw [State.blockFits_iff]; simp only [ExecuteFault]; omega

theorem executeFault_storeBcd_iff {x : Nibble} : ExecuteFault (.storeBcd x) s ↔ ¬s.blockFits 3 = true := by
  rw [State.blockFits_iff]; simp only [ExecuteFault]; omega

theorem executeFault_storeBlock_iff {x : Nibble} :
    ExecuteFault (.storeBlock x) s ↔ ¬s.blockFits (x.toNat + 1) = true := by
  rw [State.blockFits_iff]; simp only [ExecuteFault]; omega

theorem executeFault_loadBlock_iff {x : Nibble} :
    ExecuteFault (.loadBlock x) s ↔ ¬s.blockFits (x.toNat + 1) = true := by
  rw [State.blockFits_iff]; simp only [ExecuteFault]; omega

/-- An instruction whose listed fault arises changes the fault record and nothing else (R150, decision D17). -/
theorem exec_of_executeFault {i : Instr} (h : ExecuteFault i s) :
    exec i s = .next (s.raise (executeFaultCode i) (encode i) (executeFaultInfo i s)) := by
  cases i with
  | call nnn => simp only [exec, execCall, State.push_of_full s s.pc h]; rfl
  | ret => simp only [exec, execRet, State.pop_of_empty s h]; rfl
  | draw x y n => exact if_neg (executeFault_draw_iff.mp h)
  | storeBcd x => exact if_neg (executeFault_storeBcd_iff.mp h)
  | storeBlock x => exact if_neg (executeFault_storeBlock_iff.mp h)
  | loadBlock x => exact if_neg (executeFault_loadBlock_iff.mp h)
  | skipKeyPressed x | skipKeyNotPressed x => exact if_pos h
  | _ => exact h.elim

/-! ### Completion of the instructions that can fault -/

theorem exec_call_of_not_fault {nnn : Addr12} (h : ¬ExecuteFault (.call nnn) s) :
    ∃ u, s.push s.pc = some u ∧ exec (.call nnn) s = .next (u.setPC (zextAddr nnn)) := by
  have hu := State.push_of_room s s.pc (Nat.lt_of_not_le h)
  exact ⟨_, hu, by simp only [exec, execCall, hu]⟩

theorem exec_ret_of_not_fault (h : ¬ExecuteFault .ret s) :
    ∃ a u, s.pop = some (a, u) ∧ exec .ret s = .next (u.setPC (a + 2)) := by
  have hu := State.pop_of_live s (Nat.pos_of_ne_zero h)
  exact ⟨_, _, hu, by simp only [exec, execRet, hu]⟩

theorem exec_draw_of_not_fault {x y n : Nibble} (h : ¬ExecuteFault (.draw x y n) s) :
    ∃ fb flag, exec (.draw x y n) s = .next ((s.setFB fb).setFlag flag).advance :=
  ⟨_, _, if_pos (not_not.mp (mt executeFault_draw_iff.mpr h))⟩

theorem exec_storeBcd_of_not_fault {x : Nibble} (h : ¬ExecuteFault (.storeBcd x) s) :
    exec (.storeBcd x) s = .next (s.writeBlock (storedBytes (.storeBcd x) s)).advance :=
  if_pos (not_not.mp (mt executeFault_storeBcd_iff.mpr h))

theorem exec_storeBlock_of_not_fault {x : Nibble} (h : ¬ExecuteFault (.storeBlock x) s) :
    exec (.storeBlock x) s = .next (s.writeBlock (storedBytes (.storeBlock x) s)).advance :=
  if_pos (not_not.mp (mt executeFault_storeBlock_iff.mpr h))

theorem exec_loadBlock_of_not_fault {x : Nibble} (h : ¬ExecuteFault (.loadBlock x) s) :
    exec (.loadBlock x) s = .next (s.setRegsFrom 0 (s.readBlock (x.toNat + 1))).advance :=
  if_pos (not_not.mp (mt executeFault_loadBlock_iff.mpr h))

theorem exec_skipKeyPressed_of_not_fault {x : Nibble} (h : ¬ExecuteFault (.skipKeyPressed x) s) :
    exec (.skipKeyPressed x) s = .next (s.skipIf (s.key ((s.reg x).setWidth 4))) := if_neg h

theorem exec_skipKeyNotPressed_of_not_fault {x : Nibble} (h : ¬ExecuteFault (.skipKeyNotPressed x) s) :
    exec (.skipKeyNotPressed x) s = .next (s.skipIf (!s.key ((s.reg x).setWidth 4))) := if_neg h

/-- await-key polls, or writes its register and consumes the key (R143). -/
theorem exec_awaitKey_cases {x : Nibble} (h : exec (.awaitKey x) s = .next t) :
    t = s ∨ ∃ k, t = ((s.setReg x (k.setWidth 8)).setKeyFlag k false).advance := by
  simp only [exec, execAwaitKey] at h
  split at h
  · exact .inl (Host.Outcome.next.inj h).symm
  · exact .inr ⟨_, (Host.Outcome.next.inj h).symm⟩

end

end Sys2Proof.Safety
end

section
/-! SUPPORT. The frame of exec: the parts an instruction that completes may change, and the bytes it stores. -/

namespace Sys2Proof.Safety

open Sys2Proof.Machine

section
variable {i : Instr} {s t : State}

/-- A completed instruction changes its `changedParts`, the fault record excepted (R8, R150). -/
theorem exec_onlyChanges_of_not_fault (hn : ¬ExecuteFault i s) (h : exec i s = .next t) :
    OnlyChanges ((changedParts i).filter (· != .fault)) s t := by
  cases i with
  | sysNoop _ | jump _ | jumpOffset _ | skipEqByte _ _ | skipNeByte _ _ | skipEqReg _ _ | skipNeReg _ _ =>
    cases Host.Outcome.next.inj h
    exact onlyChanges_setPC s _
  | clearScreen =>
    cases Host.Outcome.next.inj h
    exact (onlyChanges_setFB s _).trans (onlyChanges_advance _)
  | ret =>
    obtain ⟨a, u, hu, e⟩ := exec_ret_of_not_fault hn
    cases e.symm.trans h
    exact (onlyChanges_pop s hu).trans (onlyChanges_setPC u _)
  | call nnn =>
    obtain ⟨u, hu, e⟩ := exec_call_of_not_fault hn
    cases e.symm.trans h
    exact (onlyChanges_push s hu).trans (onlyChanges_setPC u _)
  | loadByte _ _ | addByte _ _ | loadReg _ _ | orReg _ _ | andReg _ _ | xorReg _ _ | loadDelay _ =>
    cases Host.Outcome.next.inj h
    exact (onlyChanges_setReg s _ _).trans (onlyChanges_advance _)
  | addReg _ _ | sub _ _ | shiftRight _ _ | subn _ _ | shiftLeft _ _ =>
    cases Host.Outcome.next.inj h
    exact onlyChanges_setResultAndFlag s _ _ _
  | random _ _ =>
    cases Host.Outcome.next.inj h
    exact (((onlyChanges_setReg s _ _).trans (onlyChanges_countDraw _)).trans (onlyChanges_advance _)).mono
      (by simp [changedParts])
  | loadIndex _ | addIndex _ | fontAddress _ =>
    cases Host.Outcome.next.inj h
    exact (onlyChanges_setI s _).trans (onlyChanges_advance _)
  | draw x y n =>
    obtain ⟨fb, flag, e⟩ := exec_draw_of_not_fault hn
    cases e.symm.trans h
    exact ((onlyChanges_setFB s fb).trans (onlyChanges_setFlag _ flag)).trans (onlyChanges_advance _)
  | skipKeyPressed x =>
    cases (exec_skipKeyPressed_of_not_fault hn).symm.trans h
    exact onlyChanges_skipIf s _
  | skipKeyNotPressed x =>
    cases (exec_skipKeyNotPressed_of_not_fault hn).symm.trans h
    exact onlyChanges_skipIf s _
  | awaitKey x =>
    rcases exec_awaitKey_cases h with rfl | ⟨k, rfl⟩
    · exact OnlyChanges.refl _ _
    · exact ((onlyChanges_setReg s x _).trans (onlyChanges_setKeyFlag _ k false)).trans (onlyChanges_advance _)
  | storeDelay _ =>
    cases Host.Outcome.next.inj h
    exact (onlyChanges_setDT s _).trans (onlyChanges_advance _)
  | loadSoundStore _ =>
    cases Host.Outcome.next.inj h
    exact (onlyChanges_setST s _).trans (onlyChanges_advance _)
  | storeBcd x =>
    cases (exec_storeBcd_of_not_fault hn).symm.trans h
    exact (onlyChanges_writeBlock s _).trans (onlyChanges_advance _)
  | storeBlock x =>
    cases (exec_storeBlock_of_not_fault hn).symm.trans h
    exact (onlyChanges_writeBlock s _).trans (onlyChanges_advance _)
  | loadBlock x =>
    cases (exec_loadBlock_of_not_fault hn).symm.trans h
    exact (onlyChanges_setRegsFrom s 0 _).trans (onlyChanges_advance _)

/-- A completed instruction leaves the fault record as it was. -/
theorem exec_fault_of_not_fault (hn : ¬ExecuteFault i s) (h : exec i s = .next t) : t.fault = s.fault :=
  exec_onlyChanges_of_not_fault hn h .fault (by simp)

theorem fault_mem_changedParts (h : ExecuteFault i s) : .fault ∈ changedParts i := by
  cases i with
  | call _ | ret | draw _ _ _ | storeBcd _ | storeBlock _ | loadBlock _ | skipKeyPressed _ | skipKeyNotPressed _ =>
    simp [changedParts]
  | _ => exact h.elim

/-- The frame of every instruction, faulting or not (R8, R11, R15 to R21). -/
theorem exec_onlyChanges (h : exec i s = .next t) : OnlyChanges (changedParts i) s t := by
  by_cases hf : ExecuteFault i s
  · cases (exec_of_executeFault hf).symm.trans h
    exact (onlyChanges_raise s _ _ _).mono (by simpa using fault_mem_changedParts hf)
  · exact (exec_onlyChanges_of_not_fault hf h).mono fun p hp => List.mem_of_mem_filter hp

theorem exec_config (h : exec i s = .next t) : t.config = s.config :=
  exec_onlyChanges h .config (by cases i <;> simp [changedParts])

/-- Of memory, a completed instruction writes its `storedBytes` from the effective address on and nothing else. -/
theorem exec_mem_of_not_fault (hn : ¬ExecuteFault i s) (h : exec i s = .next t) :
    t.mem = Memory.writeRange s.config.glyphRom s.mem (s.dataAddr 0) (storedBytes i s) := by
  cases i with
  | storeBcd x => cases (exec_storeBcd_of_not_fault hn).symm.trans h; rfl
  | storeBlock x => cases (exec_storeBlock_of_not_fault hn).symm.trans h; rfl
  | call nnn =>
    obtain ⟨u, hu, e⟩ := exec_call_of_not_fault hn
    cases e.symm.trans h
    exact (State.push_mem hu : u.mem = s.mem)
  | ret =>
    obtain ⟨a, u, hu, e⟩ := exec_ret_of_not_fault hn
    cases e.symm.trans h
    exact (State.pop_mem hu : u.mem = s.mem)
  | draw x y n =>
    obtain ⟨fb, flag, e⟩ := exec_draw_of_not_fault hn
    cases e.symm.trans h; rfl
  | skipKeyPressed x => cases (exec_skipKeyPressed_of_not_fault hn).symm.trans h; rfl
  | skipKeyNotPressed x => cases (exec_skipKeyNotPressed_of_not_fault hn).symm.trans h; rfl
  | awaitKey x => rcases exec_awaitKey_cases h with rfl | ⟨k, rfl⟩ <;> rfl
  | loadBlock x =>
    cases (exec_loadBlock_of_not_fault hn).symm.trans h
    rw [State.setRegsFrom_eq]; rfl
  | _ => cases Host.Outcome.next.inj h; rfl

/-- No instruction changes a byte outside the block of its `storedBytes`. -/
theorem exec_memoryKeptOutside (h : exec i s = .next t) :
    MemoryKeptOutside (s.dataAddr 0) (storedBytes i s).length s t := fun c hc => by
  by_cases hf : ExecuteFault i s
  · cases (exec_of_executeFault hf).symm.trans h; rfl
  · simp only [State.byte, exec_config h, exec_mem_of_not_fault hf h]
    exact Memory.read_writeRange_outside _ _ _ _ _ hc

end

/-- Settles O36: the frame and the stored block, both said for all instructions. -/
theorem instructionsChangeOnlyTheirParts : Obligations.InstructionsChangeOnlyTheirParts := by
  intro i s t h
  refine ⟨exec_onlyChanges h, ?_, ?_⟩
  · rintro x rfl
    exact exec_memoryKeptOutside h
  · rintro x rfl
    have hlen : (storedBytes (.storeBlock x) s).length = x.toNat + 1 := State.length_regsUpTo s x
    exact hlen ▸ exec_memoryKeptOutside h

end Sys2Proof.Safety
end

section
/-! SUPPORT. What every transaction keeps: the parameters, and the invariant part by part (memory, flow, fault record). -/

namespace Sys2Proof.Safety

open Sys2Proof.Machine

/-! ### Runs of transactions (R173) -/

theorem runTransactions_cons {tr : Transaction} {rest : List Transaction} {s t : State}
    (h : runTransactions (tr :: rest) s = .next t) :
    ∃ u, transact tr s = .next u ∧ runTransactions rest u = .next t := by
  simp only [runTransactions] at h
  split at h
  · next u hu => exact ⟨u, hu, h⟩
  · cases h
  · cases h

/-- What every transaction keeps, every list of transactions keeps. -/
theorem runTransactions_keeps {P : State → Prop} (keep : ∀ tr s t, P s → transact tr s = .next t → P t)
    {ts : List Transaction} {s t : State} (hs : P s) (h : runTransactions ts s = .next t) : P t := by
  induction ts generalizing s with
  | nil => cases Host.Outcome.next.inj h; exact hs
  | cons tr rest ih =>
    obtain ⟨u, hu, hrest⟩ := runTransactions_cons h
    exact ih (keep tr s u hs hu) hrest

/-! ### The parameters -/

section
variable {s t : State}

theorem step_config (h : step s = .next t) : t.config = s.config := by
  rcases step_cases h with ⟨-, rfl⟩ | ⟨-, -, rfl⟩ | ⟨op, e, -, -, -, rfl⟩ | ⟨op, i, -, -, -, -, he⟩
  · rfl
  · rfl
  · rfl
  · exact exec_config he

theorem loadProgram_eq (bytes : List Byte) (s : State) :
    (loadProgram bytes s).1 = s ∨ (loadProgram bytes s).1 = s.storeBytes Config.loadBase bytes := by
  unfold loadProgram
  split
  · exact .inl rfl
  · exact .inr rfl

theorem transact_config {tr : Transaction} (h : transact tr s = .next t) : t.config = s.config := by
  cases tr with
  | step => exact step_config h
  | loadProgram bytes =>
    cases Host.Outcome.next.inj h
    rcases loadProgram_eq bytes s with e | e <;> rw [e]; rfl
  | reset | tick | setKey _ _ => cases Host.Outcome.next.inj h; rfl

end

/-- Settles O60, by induction on the list of transactions. -/
theorem parametersNeverChange : Obligations.ParametersNeverChange := fun _ s _ h =>
  runTransactions_keeps (P := fun u => u.config = s.config) (fun _ _ _ hu ht => (transact_config ht).trans hu) rfl h

section
variable {s t : State}

/-! ### Canonical memory -/

theorem MemoryCanonical.writeRange (hs : MemoryCanonical s) (hc : t.config = s.config) {a : Nat} {bytes : List Byte}
    (hm : t.mem = Memory.writeRange s.config.glyphRom s.mem a bytes) : MemoryCanonical t := by
  unfold MemoryCanonical
  rw [hm, hc]
  exact Memory.wf_writeRange _ _ _ _ hs

/-! ### Flow -/

/-- An update that leaves the stack alone keeps the flow bounds if its `PC` is in bounds. -/
theorem FlowBounded.withPC (hs : FlowBounded s) (hc : t.config = s.config) (hsp : t.sp = s.sp)
    (hst : t.stack = s.stack) (hpc : t.pc.toNat ≤ 0x10FE) : FlowBounded t where
  pcBound := hpc
  depthBound := by rw [hsp, hc]; exact hs.depthBound
  stackBound j := by rw [hsp, hst]; exact hs.stackBound j
  noSlotBeyond j := by rw [hst, hc]; exact hs.noSlotBeyond j

/-- A saved address is a fetched one, and its slot is a slot (R17, R83). -/
theorem FlowBounded.push (hs : FlowBounded s) {w : Word} (hw : w.toNat ≤ 0xFFE) (h : s.push w = some t) :
    FlowBounded t := by
  unfold State.push at h
  split at h
  next room =>
    cases h
    refine ⟨hs.pcBound, room, fun j hj => ?_, fun j hj => ?_⟩
    · rw [Vector.getElem_set]
      split
      · exact hw
      · next hne => exact hs.stackBound j (by simp only at hj; omega)
    · rw [Vector.getElem_set_ne _ _ (by simp only at hj; omega)]
      exact hs.noSlotBeyond j hj
  next => cases h

theorem FlowBounded.pop (hs : FlowBounded s) {a : Word} (h : s.pop = some (a, t)) :
    FlowBounded t ∧ a.toNat ≤ 0xFFE := by
  have hdepth := hs.depthBound
  unfold State.pop at h
  split at h
  next live =>
    cases h
    have top : s.stack[s.sp.val - 1].toNat ≤ 0xFFE := hs.stackBound ⟨s.sp.val - 1, by omega⟩ (by simp only; omega)
    exact ⟨⟨hs.pcBound, by simp only; omega, fun j hj => hs.stackBound j (by simp only at hj; omega),
      hs.noSlotBeyond⟩, top⟩
  next => cases h

theorem toNat_zextAddr (nnn : Addr12) : (zextAddr nnn).toNat = nnn.toNat := by
  have := nnn.isLt
  simp [zextAddr]; omega

theorem toNat_zextByte (b : Byte) : (zextByte b).toNat = b.toNat := by
  have := b.isLt
  simp [zextByte]; omega

/-- The largest target of jump-offset (R15): 0xFFF + 0xFF. -/
theorem toNat_jumpOffset_le (nnn : Addr12) (b : Byte) : (zextAddr nnn + zextByte b).toNat ≤ 0x10FE := by
  have := nnn.isLt
  have := b.isLt
  rw [BitVec.toNat_add, toNat_zextAddr, toNat_zextByte]
  omega

theorem toNat_zextAddr_le (nnn : Addr12) : (zextAddr nnn).toNat ≤ 0x10FE := by
  have := nnn.isLt
  rw [toNat_zextAddr]
  omega

/-- An advance or a skip from a fetched address does not wrap (R15). -/
theorem toNat_add_le {w d : Word} (hw : w.toNat ≤ 0xFFE) (hd : d.toNat ≤ 4) : (w + d).toNat ≤ 0x10FE := by
  rw [BitVec.toNat_add]
  omega

theorem toNat_skip_le (c : Bool) : (if c then 4 else 2 : Word).toNat ≤ 4 := by cases c <;> decide

/-- A completed instruction, fetched at its `PC`, keeps the flow bounds. -/
theorem exec_flowBounded_of_not_fault {i : Instr} (hs : FlowBounded s) (hpc : s.pc.toNat ≤ 0xFFE)
    (hn : ¬ExecuteFault i s) (h : exec i s = .next t) : FlowBounded t := by
  have next : (s.pc + 2).toNat ≤ 0x10FE := toNat_add_le hpc (by decide)
  have skip : ∀ c : Bool, (s.pc + if c then 4 else 2).toNat ≤ 0x10FE := fun c => toNat_add_le hpc (toNat_skip_le c)
  cases i with
  | call nnn =>
    obtain ⟨u, hu, e⟩ := exec_call_of_not_fault hn
    cases e.symm.trans h
    exact (hs.push hpc hu).withPC rfl rfl rfl (toNat_zextAddr_le nnn)
  | ret =>
    obtain ⟨a, u, hu, e⟩ := exec_ret_of_not_fault hn
    cases e.symm.trans h
    obtain ⟨hflow, ha⟩ := hs.pop hu
    exact hflow.withPC rfl rfl rfl (toNat_add_le ha (by decide))
  | jump nnn =>
    cases Host.Outcome.next.inj h
    exact hs.withPC rfl rfl rfl (toNat_zextAddr_le nnn)
  | jumpOffset nnn =>
    cases Host.Outcome.next.inj h
    exact hs.withPC rfl rfl rfl (toNat_jumpOffset_le nnn (s.reg 0))
  | skipEqByte _ _ | skipNeByte _ _ | skipEqReg _ _ | skipNeReg _ _ =>
    cases Host.Outcome.next.inj h
    exact hs.withPC rfl rfl rfl (skip _)
  | skipKeyPressed x =>
    cases (exec_skipKeyPressed_of_not_fault hn).symm.trans h
    exact hs.withPC rfl rfl rfl (skip _)
  | skipKeyNotPressed x =>
    cases (exec_skipKeyNotPressed_of_not_fault hn).symm.trans h
    exact hs.withPC rfl rfl rfl (skip _)
  | awaitKey x =>
    rcases exec_awaitKey_cases h with rfl | ⟨k, rfl⟩
    · exact hs
    · exact hs.withPC rfl rfl rfl next
  | draw x y n =>
    obtain ⟨fb, flag, e⟩ := exec_draw_of_not_fault hn
    cases e.symm.trans h
    exact hs.withPC rfl rfl rfl next
  | storeBcd x =>
    cases (exec_storeBcd_of_not_fault hn).symm.trans h
    exact hs.withPC rfl rfl rfl next
  | storeBlock x =>
    cases (exec_storeBlock_of_not_fault hn).symm.trans h
    exact hs.withPC rfl rfl rfl next
  | loadBlock x =>
    cases (exec_loadBlock_of_not_fault hn).symm.trans h
    rw [State.setRegsFrom_eq]
    exact hs.withPC rfl rfl rfl next
  | _ =>
    cases Host.Outcome.next.inj h
    exact hs.withPC rfl rfl rfl next

/-! ### The fault record -/

/-- A running core has its record clear, and an update that leaves the record alone leaves it consistent. -/
theorem FaultConsistent.of_running (hs : FaultConsistent s) (hr : Running s) (h : t.fault = s.fault) :
    FaultConsistent t := by
  unfold FaultConsistent Running at *
  rw [h, hr]
  rwa [hr] at hs

/-- The record an instruction leaves agrees with the state its fault left (R22, R151). -/
theorem faultConsistent_of_executeFault {i : Instr} (hd : s.sp.val ≤ s.config.stackDepth.val)
    (h : ExecuteFault i s) :
    FaultConsistent (s.raise (executeFaultCode i) (encode i) (executeFaultInfo i s)) := by
  cases i with
  | call nnn => exact ⟨rfl, rfl, Nat.le_antisymm hd h, nnn, rfl⟩
  | ret => exact ⟨rfl, rfl, h, rfl⟩
  | draw _ _ _ | storeBcd _ | storeBlock _ | loadBlock _ => exact ⟨rfl, State.toNat_firstBadAddr s⟩
  | skipKeyPressed x | skipKeyNotPressed x => exact ⟨rfl, x, rfl, h⟩
  | _ => exact h.elim

/-! ### The invariant -/

theorem Inv.raise (hs : Inv s) {c : FaultCode} {op w : Word} (hf : FaultConsistent (s.raise c op w)) :
    Inv (s.raise c op w) where
  memory := hs.memory
  flow := hs.flow.withPC rfl rfl rfl hs.flow.pcBound
  fault := hf

theorem exec_keeps_inv {i : Instr} (hs : Inv s) (hr : Running s) (hpc : s.pc.toNat ≤ 0xFFE)
    (h : exec i s = .next t) : Inv t := by
  by_cases hf : ExecuteFault i s
  · cases (exec_of_executeFault hf).symm.trans h
    exact hs.raise (faultConsistent_of_executeFault hs.flow.depthBound hf)
  · exact {
      memory := hs.memory.writeRange (exec_config h) (exec_mem_of_not_fault hf h)
      flow := exec_flowBounded_of_not_fault hs.flow hpc hf h
      fault := hs.fault.of_running hr (exec_fault_of_not_fault hf h) }

/-- One step keeps the invariant, along each of the four lines of R60. -/
theorem step_keeps_inv (hs : Inv s) (h : step s = .next t) : Inv t := by
  rcases step_cases h with ⟨-, rfl⟩ | ⟨-, hfetch, rfl⟩ | ⟨op, e, -, -, hd, rfl⟩ | ⟨op, i, hh, hfetch, -, -, he⟩
  · exact hs
  · exact hs.raise ⟨rfl, rfl, rfl, (State.fetch_eq_none_iff s s.pc).mp hfetch⟩
  · exact hs.raise ⟨rfl, rfl, e, hd⟩
  · have hpc : s.pc.toNat ≤ 0xFFE := by
      by_contra hgt
      simp [State.fetch_of_gt (Nat.lt_of_not_le hgt)] at hfetch
    exact exec_keeps_inv hs ((halted_eq_false_iff s).mp hh) hpc he

theorem inv_resetCore (s : State) : Inv (resetCore s) where
  memory := rfl
  flow := {
    pcBound := (by decide : (0x200 : Word).toNat ≤ 0x10FE)
    depthBound := Nat.zero_le _
    stackBound := fun _ hj => absurd hj (Nat.not_lt_zero _)
    noSlotBeyond := fun _ _ => Vector.getElem_replicate _ }
  fault := ⟨rfl, rfl, rfl⟩

theorem inv_resetWith (c : Config) : Inv (State.resetWith c) := inv_resetCore (State.resetWith c)

/-- Every transaction keeps the invariant: the host's moves of timers, keys and memory reach nothing that the flow bounds
and the fault record speak of (R157). -/
theorem transact_keeps_inv {tr : Transaction} (hs : Inv s) (h : transact tr s = .next t) : Inv t := by
  have hflow := hs.flow
  cases tr with
  | step => exact step_keeps_inv hs h
  | reset => cases Host.Outcome.next.inj h; exact inv_resetCore s
  | tick | setKey _ _ =>
    cases Host.Outcome.next.inj h
    exact ⟨hs.memory, hflow.withPC rfl rfl rfl hflow.pcBound, hs.fault⟩
  | loadProgram bytes =>
    cases Host.Outcome.next.inj h
    rcases loadProgram_eq bytes s with e | e <;> rw [e]
    · exact hs
    · exact ⟨hs.memory.writeRange rfl rfl, hflow.withPC rfl rfl rfl hflow.pcBound, hs.fault⟩

end

/-- Settles O5: reset has the invariant and every transaction keeps it. -/
theorem reachableStatesMeetInvariant : Obligations.ReachableStatesMeetInvariant := by
  rintro s ⟨c, ts, h⟩
  exact runTransactions_keeps (fun _ _ _ => transact_keeps_inv) (inv_resetWith c) h

/-- Settles O59: the constants and the glyph bytes read from reset memory, by computation. -/
theorem constantsAndDefaultParameters : Obligations.ConstantsAndDefaultParameters :=
  ⟨rfl, rfl, rfl, rfl, rfl, by decide, by decide, by decide, by decide⟩

end Sys2Proof.Safety
end

section
/-! SUPPORT. The invariant at reset and along a step. -/

namespace Sys2Proof.Safety

open Sys2Proof.Machine

/-- Settles O3: the invariant along each line of the step cycle. -/
theorem stepKeepsInvariant : Obligations.StepKeepsInvariant := fun _ _ => step_keeps_inv

/-- Settles O2: the reset values meet each part of the invariant, at every value of the parameters. -/
theorem resetMeetsInvariant : Obligations.ResetMeetsInvariant := ⟨inv_resetWith Config.default, inv_resetWith⟩

end Sys2Proof.Safety
end

section
/-! SUPPORT. The ports as the host reads them: a packed list of bits, and the frame buffer row after row (10_state.md R29). -/

namespace Sys2Proof.Machine

theorem testBit_bitsToNat (l : List Bool) (k : Nat) : (bitsToNat l).testBit k = l.getD k false := by
  induction l generalizing k with
  | nil => simp [bitsToNat]
  | cons b rest ih =>
    rw [bitsToNat, Nat.add_comm, ← Nat.bit_val]
    cases k with
    | zero => simp
    | succ k => simp [Nat.testBit_bit_succ, ih]

/-- A port of `w` lines shows the `k`-th bit of the list at line `k`. -/
theorem getLsbD_ofNat_bitsToNat {w k : Nat} (l : List Bool) (hk : k < w) :
    (BitVec.ofNat w (bitsToNat l)).getLsbD k = l.getD k false := by
  rw [BitVec.getLsbD_ofNat, decide_eq_true hk, Bool.true_and, testBit_bitsToNat]

/-- The rows of the frame buffer one after the other, as one vector of pixels. -/
theorem FrameBuffer.rows_eq_flatten (fb : FrameBuffer) : (fb.toList.flatMap fun line => line.toList) = fb.flatten.toList := by
  obtain ⟨⟨rows⟩, h⟩ := fb
  simp [Vector.flatten, List.flatMap, Vector.toList, Function.comp_def]

/-- Pixel `(y, x)` is number `64*y + x` of the rows. -/
theorem FrameBuffer.getD_rows (fb : FrameBuffer) (y : Fin 32) (x : Fin 64) :
    (fb.toList.flatMap fun line => line.toList).getD (64 * y.val + x.val) false = fb.pixel y x := by
  have hlt : 64 * y.val + x.val < 32 * 64 := by omega
  have hrow : (64 * y.val + x.val) / 64 = y.val := by omega
  have hcol : (64 * y.val + x.val) % 64 = x.val := by omega
  rw [FrameBuffer.rows_eq_flatten, List.getD_eq_getElem _ _ (by simpa using hlt), Vector.getElem_toList,
    Vector.getElem_flatten]
  simp only [hrow, hcol, FrameBuffer.pixel]

theorem State.getD_keys (s : State) (k : Nibble) : s.keys.toList.getD k.toNat false = s.key k := by
  rw [List.getD_eq_getElem _ _ (by simpa using k.isLt), Vector.getElem_toList, State.key]

end Sys2Proof.Machine

namespace Sys2Proof.Safety

open Sys2Proof.Machine

/-- Settles O58: each port packs a list of bits in which the pixel or the flag has the number the spec names. -/
theorem portsShowPixelsAndKeys : Obligations.PortsShowPixelsAndKeys := by
  refine ⟨fun s y x => ?_, fun s k => ?_⟩
  · have hport : 64 * y.val + x.val < 2048 := by omega
    rw [fbPort, getLsbD_ofNat_bitsToNat _ hport, FrameBuffer.getD_rows]
  · rw [keysPort, getLsbD_ofNat_bitsToNat _ k.isLt, State.getD_keys]

end Sys2Proof.Safety
end

section
/-! SUPPORT. The register table of R11: what an instruction writes, and that a register it does not read influences
nothing but itself. -/

namespace Sys2Proof.Machine

/-! ### Updates of a state with another value in one register -/

section
variable (s : State) (r : Nibble) (b : Byte)

theorem State.reg_setReg_ne {x : Nibble} (h : x ≠ r) : (s.setReg r b).reg x = s.reg x := by
  rw [State.reg_setReg, if_neg h]

theorem State.setReg_setReg (c : Byte) : (s.setReg r b).setReg r c = s.setReg r c := by
  simp [State.setReg]

theorem State.setReg_comm {x : Nibble} (h : x ≠ r) (c : Byte) :
    (s.setReg r b).setReg x c = (s.setReg x c).setReg r b := by
  have hne : r.toNat ≠ x.toNat := fun e => h (BitVec.eq_of_toNat_eq e.symm)
  simp only [State.setReg, Vector.set_comm _ _ hne]

theorem State.push_setReg (w : Word) : (s.setReg r b).push w = (s.push w).map (·.setReg r b) := by
  rcases Nat.lt_or_ge s.sp.val s.config.stackDepth.val with room | full
  · rw [State.push_of_room s w room, State.push_of_room (s.setReg r b) w room]
    rfl
  · rw [State.push_of_full s w full, State.push_of_full (s.setReg r b) w full]
    rfl

theorem State.pop_setReg : (s.setReg r b).pop = s.pop.map fun (a, t) => (a, t.setReg r b) := by
  rcases Nat.eq_zero_or_pos s.sp.val with empty | live
  · rw [State.pop_of_empty s empty, State.pop_of_empty (s.setReg r b) empty]
    rfl
  · rw [State.pop_of_live s live, State.pop_of_live (s.setReg r b) live]
    rfl

end

theorem State.regsUpTo_congr {s t : State} {x : Nibble} (h : ∀ q, q ≤ x → s.reg q = t.reg q) :
    s.regsUpTo x = t.regsUpTo x := by
  refine List.map_congr_left fun k hk => h _ ?_
  have hlt := List.mem_range.mp hk
  rw [BitVec.le_def, State.toNat_ofNat_lt (by omega)]
  omega

/-! ### Agreement off one register -/

/-- The two states agree in everything but register `r`. -/
def AgreeOff (r : Nibble) (s t : State) : Prop := s.setReg r 0 = t.setReg r 0

section
variable {r : Nibble} {s t : State}

/-- Another value in register `r` is no disagreement. -/
theorem AgreeOff.of_eq_setReg {b : Byte} (h : s = t.setReg r b) : AgreeOff r s t :=
  h ▸ State.setReg_setReg t r b 0

/-- An update that leaves the registers alone keeps the agreement. -/
theorem AgreeOff.map {f : State → State} (hf : ∀ u c, (f u).setReg r c = f (u.setReg r c)) (h : AgreeOff r s t) :
    AgreeOff r (f s) (f t) := by
  unfold AgreeOff
  rw [hf, hf, h]

theorem AgreeOff.advance (h : AgreeOff r s t) : AgreeOff r s.advance t.advance := h.map fun _ _ => rfl

theorem AgreeOff.setFB (h : AgreeOff r s t) (fb : FrameBuffer) : AgreeOff r (s.setFB fb) (t.setFB fb) :=
  h.map (f := fun v => v.setFB fb) fun _ _ => rfl

/-- The same byte written to the same register, be it `r` or another, keeps the agreement. -/
theorem AgreeOff.setReg (h : AgreeOff r s t) (x : Nibble) (c : Byte) : AgreeOff r (s.setReg x c) (t.setReg x c) := by
  by_cases hx : x = r
  · subst hx
    simp only [AgreeOff, State.setReg_setReg]
    exact h
  · exact h.map fun u d => (State.setReg_comm u r d hx c).symm

theorem AgreeOff.setResultAndFlag (h : AgreeOff r s t) (x : Nibble) (result flag : Byte) :
    AgreeOff r (s.setResultAndFlag x result flag) (t.setResultAndFlag x result flag) :=
  ((h.setReg x result).setReg vf flag).advance

theorem AgreeOff.setRegsFrom (h : AgreeOff r s t) (k : Nat) (bytes : List Byte) :
    AgreeOff r (s.setRegsFrom k bytes) (t.setRegsFrom k bytes) := by
  induction bytes generalizing s t k with
  | nil => exact h
  | cons b rest ih => exact ih (h.setReg _ b) (k + 1)

end

end Sys2Proof.Machine

namespace Sys2Proof.Safety

open Sys2Proof.Machine

/-! ### The "writes" column -/

section
variable {i : Instr} {s t u : State} {r : Nibble} {b : Byte}

/-- A completed instruction leaves a register outside its "writes" as it was. -/
theorem exec_reg_of_not_fault (hn : ¬ExecuteFault i s) (h : exec i s = .next t) (hw : writesReg i r = false) :
    t.reg r = s.reg r := by
  cases i with
  | loadByte x _ | addByte x _ | loadReg x _ | orReg x _ | andReg x _ | xorReg x _ | random x _ | loadDelay x =>
    cases Host.Outcome.next.inj h
    exact State.reg_setReg_ne s x _ (beq_eq_false_iff_ne.mp hw)
  | addReg x _ | sub x _ | subn x _ | shiftRight x _ | shiftLeft x _ =>
    cases Host.Outcome.next.inj h
    obtain ⟨hx, hf⟩ : r ≠ x ∧ r ≠ vf := by simpa [writesReg] using hw
    rw [State.reg_setResultAndFlag, if_neg hf, if_neg hx]
  | draw x y n =>
    obtain ⟨fb, flag, e⟩ := exec_draw_of_not_fault hn
    cases e.symm.trans h
    exact State.reg_setReg_ne (s.setFB fb) vf flag (beq_eq_false_iff_ne.mp hw)
  | awaitKey x =>
    rcases exec_awaitKey_cases h with rfl | ⟨k, rfl⟩
    · rfl
    · exact State.reg_setReg_ne s x _ (beq_eq_false_iff_ne.mp hw)
  | loadBlock x =>
    cases (exec_loadBlock_of_not_fault hn).symm.trans h
    have hgt : x.toNat < r.toNat := by simpa [writesReg, BitVec.lt_def] using hw
    have hlen := State.length_readBlock s (x.toNat + 1)
    rw [State.advance_reg, State.reg_setRegsFrom _ _ _ _ (by omega), if_neg (by omega)]
  | _ => exact exec_onlyChanges h .v (by simp [changedParts]) r

theorem exec_reg_of_not_writes (h : exec i s = .next t) (hw : writesReg i r = false) : t.reg r = s.reg r := by
  by_cases hf : ExecuteFault i s
  · cases (exec_of_executeFault hf).symm.trans h
    rfl
  · exact exec_reg_of_not_fault hf h hw

/-- await-key only polls while no key is set (R143). -/
theorem exec_awaitKey_of_no_key {x : Nibble} (h : s.firstKey = none) : exec (.awaitKey x) s = .next s := by
  simp only [exec, execAwaitKey, h]

theorem exec_awaitKey_of_firstKey {x k : Nibble} (h : s.firstKey = some k) :
    exec (.awaitKey x) s = .next ((s.setReg x (k.setWidth 8)).setKeyFlag k false).advance := by
  simp only [exec, execAwaitKey, h]

/-! ### The "reads" column -/

/-- A register an instruction reads is not the one it does not read, and so holds the same. -/
theorem reg_setReg_of_reads {q : Nibble} (hr : readsReg i r = false) (hq : readsReg i q = true) :
    (s.setReg r b).reg q = s.reg q := by
  refine State.reg_setReg_ne s r b ?_
  rintro rfl
  exact absurd hq (by simp [hr])

theorem executeFault_setReg_iff (hr : readsReg i r = false) : ExecuteFault i (s.setReg r b) ↔ ExecuteFault i s := by
  cases i with
  | skipKeyPressed x | skipKeyNotPressed x =>
    simp only [ExecuteFault, reg_setReg_of_reads hr (q := x) (by simp [readsReg])]
  | _ => rfl

theorem executeFaultInfo_setReg (hr : readsReg i r = false) :
    executeFaultInfo i (s.setReg r b) = executeFaultInfo i s := by
  cases i with
  | skipKeyPressed x | skipKeyNotPressed x =>
    simp only [executeFaultInfo, reg_setReg_of_reads hr (q := x) (by simp [readsReg])]
  | _ => rfl

/-- `exec_draw_of_not_fault` with the picture and the flag written out: of the registers, they depend on the operands only. -/
theorem exec_draw_eq_of_not_fault {x y n : Nibble} (hn : ¬ExecuteFault (.draw x y n) s) :
    exec (.draw x y n) s =
      .next ((s.setFB (plotRows (s.reg x) (s.reg y) 0 (s.readBlock n.toNat) (s.fb, false)).1).setFlag
        (flagByte (plotRows (s.reg x) (s.reg y) 0 (s.readBlock n.toNat) (s.fb, false)).2)).advance :=
  if_pos (not_not.mp (mt executeFault_draw_iff.mpr hn))

/-- Completed from two states that differ in an unread register, an instruction meets the same operands and so makes the
same updates on both sides. -/
theorem exec_agreeOff_of_not_fault (hr : readsReg i r = false) (hn : ¬ExecuteFault i s) (h : exec i s = .next t)
    (hu : exec i (s.setReg r b) = .next u) : AgreeOff r u t := by
  have hn' : ¬ExecuteFault i (s.setReg r b) := mt (executeFault_setReg_iff hr).mp hn
  have agree : AgreeOff r (s.setReg r b) s := AgreeOff.of_eq_setReg rfl
  have read : ∀ q, readsReg i q = true → (s.setReg r b).reg q = s.reg q := fun _ => reg_setReg_of_reads hr
  cases i with
  | sysNoop _ | clearScreen | jump _ | loadIndex _ =>
    cases Host.Outcome.next.inj h
    cases Host.Outcome.next.inj hu
    exact .of_eq_setReg (b := b) rfl
  | call nnn =>
    obtain ⟨v, hv, e⟩ := exec_call_of_not_fault hn
    obtain ⟨v', hv', e'⟩ := exec_call_of_not_fault hn'
    rw [State.setReg_pc, State.push_setReg, hv] at hv'
    cases hv'
    cases e.symm.trans h
    cases e'.symm.trans hu
    exact .of_eq_setReg (b := b) rfl
  | ret =>
    obtain ⟨a, v, hv, e⟩ := exec_ret_of_not_fault hn
    obtain ⟨a', v', hv', e'⟩ := exec_ret_of_not_fault hn'
    rw [State.pop_setReg, hv] at hv'
    cases hv'
    cases e.symm.trans h
    cases e'.symm.trans hu
    exact .of_eq_setReg (b := b) rfl
  | skipEqByte x _ | skipNeByte x _ | addIndex x | fontAddress x | storeDelay x | loadSoundStore x =>
    cases Host.Outcome.next.inj h
    cases Host.Outcome.next.inj hu
    rw [read x (by simp [readsReg])]
    exact .of_eq_setReg (b := b) rfl
  | skipEqReg x y | skipNeReg x y =>
    cases Host.Outcome.next.inj h
    cases Host.Outcome.next.inj hu
    rw [read x (by simp [readsReg]), read y (by simp [readsReg])]
    exact .of_eq_setReg (b := b) rfl
  | jumpOffset _ =>
    cases Host.Outcome.next.inj h
    cases Host.Outcome.next.inj hu
    rw [read 0 (by simp [readsReg])]
    exact .of_eq_setReg (b := b) rfl
  | loadByte x _ | loadDelay x =>
    cases Host.Outcome.next.inj h
    cases Host.Outcome.next.inj hu
    exact (agree.setReg x _).advance
  | random x _ =>
    cases Host.Outcome.next.inj h
    cases Host.Outcome.next.inj hu
    exact (agree.setReg x _).map (f := fun v => v.countDraw.advance) fun _ _ => rfl
  | addByte x _ =>
    cases Host.Outcome.next.inj h
    cases Host.Outcome.next.inj hu
    rw [read x (by simp [readsReg])]
    exact (agree.setReg x _).advance
  | loadReg x y =>
    cases Host.Outcome.next.inj h
    cases Host.Outcome.next.inj hu
    rw [read y (by simp [readsReg])]
    exact (agree.setReg x _).advance
  | orReg x y | andReg x y | xorReg x y =>
    cases Host.Outcome.next.inj h
    cases Host.Outcome.next.inj hu
    rw [read x (by simp [readsReg]), read y (by simp [readsReg])]
    exact (agree.setReg x _).advance
  | addReg x y | sub x y | subn x y =>
    cases Host.Outcome.next.inj h
    cases Host.Outcome.next.inj hu
    rw [read x (by simp [readsReg]), read y (by simp [readsReg])]
    exact agree.setResultAndFlag x _ _
  | shiftRight x _ | shiftLeft x _ =>
    cases Host.Outcome.next.inj h
    cases Host.Outcome.next.inj hu
    rw [read x (by simp [readsReg])]
    exact agree.setResultAndFlag x _ _
  | draw x y n =>
    cases (exec_draw_eq_of_not_fault hn).symm.trans h
    cases (exec_draw_eq_of_not_fault hn').symm.trans hu
    rw [read x (by simp [readsReg]), read y (by simp [readsReg])]
    exact ((agree.setFB _).setReg vf _).advance
  | skipKeyPressed x =>
    cases (exec_skipKeyPressed_of_not_fault hn).symm.trans h
    cases (exec_skipKeyPressed_of_not_fault hn').symm.trans hu
    rw [read x (by simp [readsReg])]
    exact .of_eq_setReg (b := b) rfl
  | skipKeyNotPressed x =>
    cases (exec_skipKeyNotPressed_of_not_fault hn).symm.trans h
    cases (exec_skipKeyNotPressed_of_not_fault hn').symm.trans hu
    rw [read x (by simp [readsReg])]
    exact .of_eq_setReg (b := b) rfl
  | awaitKey x =>
    have same : (s.setReg r b).firstKey = s.firstKey := rfl
    cases hk : s.firstKey with
    | none =>
      cases (exec_awaitKey_of_no_key hk).symm.trans h
      cases (exec_awaitKey_of_no_key (same.trans hk)).symm.trans hu
      exact agree
    | some k =>
      cases (exec_awaitKey_of_firstKey hk).symm.trans h
      cases (exec_awaitKey_of_firstKey (same.trans hk)).symm.trans hu
      exact (agree.setReg x _).map (f := fun v => (v.setKeyFlag k false).advance) fun _ _ => rfl
  | storeBcd x =>
    cases (exec_storeBcd_of_not_fault hn).symm.trans h
    cases (exec_storeBcd_of_not_fault hn').symm.trans hu
    rw [storedBytes, read x (by simp [readsReg])]
    exact .of_eq_setReg (b := b) rfl
  | storeBlock x =>
    cases (exec_storeBlock_of_not_fault hn).symm.trans h
    cases (exec_storeBlock_of_not_fault hn').symm.trans hu
    rw [storedBytes, State.regsUpTo_congr fun q hq => read q (by simpa [readsReg] using hq)]
    exact .of_eq_setReg (b := b) rfl
  | loadBlock x =>
    cases (exec_loadBlock_of_not_fault hn).symm.trans h
    cases (exec_loadBlock_of_not_fault hn').symm.trans hu
    exact (agree.setRegsFrom 0 _).advance

/-- A register outside an instruction's "reads" influences nothing but itself, whether the instruction faults or not. -/
theorem exec_agreeOff_of_not_reads (hr : readsReg i r = false) (h : exec i s = .next t)
    (hu : exec i (s.setReg r b) = .next u) : AgreeOff r u t := by
  by_cases hf : ExecuteFault i s
  · cases (exec_of_executeFault hf).symm.trans h
    cases (exec_of_executeFault ((executeFault_setReg_iff hr).mpr hf)).symm.trans hu
    rw [executeFaultInfo_setReg hr]
    exact .of_eq_setReg (b := b) rfl
  · exact exec_agreeOff_of_not_fault hr hf h hu

/-! ### The host -/

/-- Of the host's transactions only reset writes a register; step writes what its instruction writes. -/
theorem transact_reg {tr : Transaction} (hstep : tr ≠ .step) (hreset : tr ≠ .reset) (h : transact tr s = .next t) :
    t.reg r = s.reg r := by
  cases tr with
  | step => exact absurd rfl hstep
  | reset => exact absurd rfl hreset
  | tick | setKey _ _ => cases Host.Outcome.next.inj h; rfl
  | loadProgram bytes =>
    cases Host.Outcome.next.inj h
    rcases loadProgram_eq bytes s with e | e <;> rw [e]; rfl

end

/-- Settles O35: the two columns of R11, await-key's condition and the host, one lemma each. -/
theorem registersReadAndWrittenPerTable : Obligations.RegistersReadAndWrittenPerTable := by
  refine ⟨fun _ _ _ _ => exec_reg_of_not_writes, fun x s t r hkeys h => ?_,
    fun _ _ _ _ _ _ => exec_agreeOff_of_not_reads, fun _ _ _ _ => transact_reg⟩
  cases (exec_awaitKey_of_no_key ((State.firstKey_eq_none s).mpr hkeys)).symm.trans h
  rfl

end Sys2Proof.Safety
end

section
/-! SUPPORT. Memory as the instructions leave it (20_memory.md): a block beyond 0xFFF traps (R46), and a completed store is
what every later fetch reads (R50). -/

namespace Sys2Proof.Machine

section
variable {s : State} {op : Word}

/-- The last two lines of R60 on a running core, from the word it fetches: the step executes what the word decodes to. -/
theorem step_of_decode_instr {i : Instr} (hh : s.halted = false) (hf : s.fetch s.pc = some op)
    (hd : decode op = .instr i) : step s = exec i s :=
  step_of_pendingInstr (by simp [State.pendingInstr, hh, hf, hd])

/-- A fetched word that decodes to nothing raises UnknownOpcode with that word (R67). -/
theorem step_of_decode_rejected {e : DecodeError} (hh : s.halted = false) (hf : s.fetch s.pc = some op)
    (hd : decode op = .rejected e) : step s = .next (s.raise .unknownOpcode op 0) := by
  simp [step, cycle, hh, hf, hd]

end

end Sys2Proof.Machine

namespace Sys2Proof.Safety

open Sys2Proof.Machine

section
variable {i : Instr} {s t : State}

/-! ### Blocks beyond memory (R46) -/

theorem traps_of_executeFault (h : ExecuteFault i s) :
    Traps i s (executeFaultCode i) (executeFaultInfo i s).toNat :=
  ⟨_, exec_of_executeFault h, onlyChanges_raise s _ _ _, rfl, rfl, rfl, rfl, rfl⟩

/-! ### What a completed instruction leaves in memory (R50) -/

theorem executeFaultCode_ne_none (h : ExecuteFault i s) : executeFaultCode i ≠ .none := by
  cases i with
  | call _ | ret | draw _ _ _ | storeBcd _ | storeBlock _ | loadBlock _ | skipKeyPressed _ | skipKeyNotPressed _ =>
    simp [executeFaultCode]
  | _ => exact h.elim

/-- An instruction that leaves the core running has completed. -/
theorem not_executeFault_of_running (h : exec i s = .next t) (ht : Running t) : ¬ExecuteFault i s := fun hf => by
  cases (exec_of_executeFault hf).symm.trans h
  exact executeFaultCode_ne_none hf ht

/-- The bytes a completed instruction stores, if any, lie inside memory. -/
theorem storedBytes_fit_of_not_fault (hn : ¬ExecuteFault i s) :
    storedBytes i s = [] ∨ s.dataAddr 0 + (storedBytes i s).length ≤ 4096 := by
  cases i with
  | storeBcd x =>
    have hfit : s.i.toNat + 2 ≤ 0xFFF := Nat.not_lt.mp hn
    have hlen : (storedBytes (.storeBcd x) s).length = 3 := rfl
    right
    simp only [State.dataAddr, hlen]
    omega
  | storeBlock x =>
    have hfit : s.i.toNat + x.toNat ≤ 0xFFF := Nat.not_lt.mp hn
    have hlen : (storedBytes (.storeBlock x) s).length = x.toNat + 1 := State.length_regsUpTo s x
    right
    simp only [State.dataAddr, hlen]
    omega
  | _ => exact .inl rfl

/-- Every byte of memory after a completed instruction: its own inside the block it stores, the old one outside. -/
theorem exec_byte_of_not_fault (hn : ¬ExecuteFault i s) (h : exec i s = .next t) (a : Nat) :
    t.byte a = byteAfterStore i s a := by
  rw [State.byte, exec_config h, exec_mem_of_not_fault hn h]
  rcases storedBytes_fit_of_not_fault hn with hnil | hfit
  · simp [byteAfterStore, hnil, Memory.writeRange, State.byte]
  · exact Memory.read_writeRange _ _ _ _ _ hfit

theorem exec_fetch_of_not_fault (hn : ¬ExecuteFault i s) (h : exec i s = .next t) {a : Word} (ha : a.toNat ≤ 0xFFE) :
    t.fetch a = some (wordAfterStore i s a.toNat) := by
  rw [State.fetch_of_le ha, exec_byte_of_not_fault hn h, exec_byte_of_not_fault hn h, wordAfterStore]

theorem exec_store_pc_of_not_fault (hi : (∃ x, i = .storeBcd x) ∨ ∃ x, i = .storeBlock x) (hn : ¬ExecuteFault i s)
    (h : exec i s = .next t) : t.pc = s.pc + 2 := by
  rcases hi with ⟨x, rfl⟩ | ⟨x, rfl⟩
  · cases (exec_storeBcd_of_not_fault hn).symm.trans h; rfl
  · cases (exec_storeBlock_of_not_fault hn).symm.trans h; rfl

end

/-- Settles O44: memory after the store gives the fetch at any address, and the fetch at `PC` gives the next step. -/
theorem storeIsSeenByTheNextFetch : Obligations.StoreIsSeenByTheNextFetch := by
  intro i s t hi _ h ht
  have hn : ¬ExecuteFault i s := not_executeFault_of_running h ht
  have hh : t.halted = false := (halted_eq_false_iff t).mpr ht
  refine ⟨fun _ => exec_fetch_of_not_fault hn h, exec_store_pc_of_not_fault hi hn h, fun hpc => ?_⟩
  have hf := exec_fetch_of_not_fault hn h hpc
  exact ⟨fun _ => step_of_decode_instr hh hf, fun _ => step_of_decode_rejected hh hf⟩

/-- Settles O42: in each of the four forms the block beyond memory is the form's listed fault. -/
theorem blocksBeyondMemoryTrap : Obligations.BlocksBeyondMemoryTrap := by
  intro x y n s
  rw [← State.toNat_firstBadAddr]
  exact ⟨traps_of_executeFault (i := .storeBcd x), traps_of_executeFault (i := .storeBlock x),
    traps_of_executeFault (i := .loadBlock x),
    fun hpos hlast => traps_of_executeFault (i := .draw x y n) ⟨hpos, hlast⟩⟩

end Sys2Proof.Safety
end

section
/-! SUPPORT. Instructions and words determine each other (30_encoding.md R61 to R68): the decoder and the encoder are
inverse, the rejected words are those of R67, and words and rows of the opcode table select each other (R64, R65). -/

namespace Sys2Proof

section
variable {op : Word} {i : Instr}

/-! ### The words of sys-noop (R64 row 1) -/

theorem encode_sysNoop_inj {nnn c : Addr12} : encode (.sysNoop nnn) = encode (.sysNoop c) ↔ nnn = c :=
  ⟨fun e => by simpa [encode] using congrArg fieldNNN e, congrArg (encode <| .sysNoop ·)⟩

/-- The check on sys-noop, on its word: the words it may not have are those of clear-screen and return. -/
theorem wellFormed_sysNoop_iff {nnn : Addr12} :
    (Instr.sysNoop nnn).WellFormed ↔ encode (.sysNoop nnn) ≠ 0x00E0 ∧ encode (.sysNoop nnn) ≠ 0x00EE := by
  have hcls : encode (.sysNoop nnn) = 0x00E0 ↔ nnn = 0x0E0 := encode_sysNoop_inj (c := 0x0E0)
  have hret : encode (.sysNoop nnn) = 0x00EE ↔ nnn = 0x0EE := encode_sysNoop_inj (c := 0x0EE)
  rw [ne_eq, ne_eq, hcls, hret]
  simp [Instr.WellFormed, Instr.wellFormed]

theorem wellFormed_of_encode_ne (hcls : encode i ≠ 0x00E0) (hret : encode i ≠ 0x00EE) : i.WellFormed := by
  cases i with
  | sysNoop nnn => exact wellFormed_sysNoop_iff.mpr ⟨hcls, hret⟩
  | _ => rfl

/-! ### Decoding an assembled word -/

/-- The decoder reads the word of a well-formed instruction back as that instruction (R64, R65). -/
theorem decode_encode (h : i.WellFormed) : decode (encode i) = .instr i := by
  cases i with
  | clearScreen | ret => rfl
  | sysNoop nnn =>
    obtain ⟨hcls, hret⟩ := wellFormed_sysNoop_iff.mp h
    have hfam : decode (encode (.sysNoop nnn)) = decodeFamily0 (encode (.sysNoop nnn)) := by simp [decode, encode]
    rw [hfam, decodeFamily0, if_neg hcls, if_neg hret, encode, fieldNNN_nnn]
  | jump _ | call _ | loadIndex _ | jumpOffset _ | skipEqByte _ _ | skipNeByte _ _ | loadByte _ _ | addByte _ _
  | random _ _ | skipEqReg _ _ | skipNeReg _ _ | draw _ _ _ =>
    simp [encode, decode]
  | loadReg _ _ | orReg _ _ | andReg _ _ | xorReg _ _ | addReg _ _ | sub _ _ | shiftRight _ _ | subn _ _
  | shiftLeft _ _ =>
    simp [encode, decode, decodeFamily8]
  | skipKeyPressed _ | skipKeyNotPressed _ => simp [encode, decode, decodeFamilyE]
  | loadDelay _ | awaitKey _ | storeDelay _ | loadSoundStore _ | addIndex _ | fontAddress _ | storeBcd _
  | storeBlock _ | loadBlock _ =>
    simp [encode, decode, decodeFamilyF]

/-! ### Encoding a decoded word -/

/-- A word put together from fields of which some are known (R62). -/
theorem nnn_of_fields {f : Nibble} (hf : fieldFamily op = f) : f ++ fieldNNN op = op := hf ▸ eq_nnn_of_fields op

theorem xnn_of_fields {f : Nibble} {nn : Byte} (hf : fieldFamily op = f) (hnn : fieldNN op = nn) :
    f ++ fieldX op ++ nn = op := by
  rw [← hf, ← hnn, eq_xnn_of_fields]

theorem xyn_of_fields {f n : Nibble} (hf : fieldFamily op = f) (hn : fieldN op = n) :
    f ++ fieldX op ++ fieldY op ++ n = op := by
  rw [← hf, ← hn, eq_xyn_of_fields]

theorem encode_of_decodeFamily0 (hf : fieldFamily op = 0x0) (h : decodeFamily0 op = .instr i) :
    i.WellFormed ∧ encode i = op := by
  unfold decodeFamily0 at h
  split at h
  · next e => cases h; exact ⟨rfl, e.symm⟩
  split at h
  · next e => cases h; exact ⟨rfl, e.symm⟩
  · next hcls hret =>
    cases h
    have hop : encode (.sysNoop (fieldNNN op)) = op := nnn_of_fields hf
    exact ⟨wellFormed_sysNoop_iff.mpr ⟨hop.symm ▸ hcls, hop.symm ▸ hret⟩, hop⟩

/-- Each match of family 8 fixes the sub-opcode `n`, and with it the whole word. -/
theorem encode_of_decodeFamily8 (hf : fieldFamily op = 0x8) (h : decodeFamily8 op = .instr i) :
    i.WellFormed ∧ encode i = op := by
  unfold decodeFamily8 at h
  split at h <;> cases h <;> exact ⟨rfl, xyn_of_fields hf (BitVec.eq_of_toNat_eq ‹_›)⟩

/-- Each match of families E and F fixes the sub-opcode `nn`, and with it the whole word. -/
theorem encode_of_decodeFamilyE (hf : fieldFamily op = 0xE) (h : decodeFamilyE op = .instr i) :
    i.WellFormed ∧ encode i = op := by
  unfold decodeFamilyE at h
  split at h <;> cases h <;> exact ⟨rfl, xnn_of_fields hf (BitVec.eq_of_toNat_eq ‹_›)⟩

theorem encode_of_decodeFamilyF (hf : fieldFamily op = 0xF) (h : decodeFamilyF op = .instr i) :
    i.WellFormed ∧ encode i = op := by
  unfold decodeFamilyF at h
  split at h <;> cases h <;> exact ⟨rfl, xnn_of_fields hf (BitVec.eq_of_toNat_eq ‹_›)⟩

/-- A decoded word is the word of its instruction, which is well formed (R65, R68). -/
theorem encode_of_decode (h : decode op = .instr i) : i.WellFormed ∧ encode i = op := by
  have family {k : Nat} (hk : (fieldFamily op).toNat = k) : fieldFamily op = BitVec.ofNat 4 k := by
    rw [← hk, BitVec.ofNat_toNat, BitVec.setWidth_eq]
  unfold decode at h
  split at h
  case h_1 hk => exact encode_of_decodeFamily0 (family hk) h
  case h_2 hk | h_3 hk | h_11 hk | h_12 hk => cases h; exact ⟨rfl, nnn_of_fields (family hk)⟩
  case h_4 hk | h_5 hk | h_7 hk | h_8 hk | h_13 hk => cases h; exact ⟨rfl, xnn_of_fields (family hk) rfl⟩
  case h_6 hk | h_10 hk =>
    split at h
    · next hn => cases h; exact ⟨rfl, xyn_of_fields (family hk) hn⟩
    · cases h
  case h_9 hk => exact encode_of_decodeFamily8 (family hk) h
  case h_14 hk => cases h; exact ⟨rfl, xyn_of_fields (family hk) rfl⟩
  case h_15 hk => exact encode_of_decodeFamilyE (family hk) h
  case h_16 =>
    have hlt := (fieldFamily op).isLt
    have hk : (fieldFamily op).toNat = 0xF := by simp only [imp_false] at *; omega
    exact encode_of_decodeFamilyF (family hk) h

/-! ### Rejected words (R67) -/

theorem decodeFamily0_ne_rejected {e : DecodeError} : decodeFamily0 op ≠ .rejected e := by
  unfold decodeFamily0
  split_ifs <;> exact Decoded.noConfusion

theorem decodeFamily8_rejected_iff :
    decodeFamily8 op = .rejected (.unknownOpcode op) ↔ (fieldN op).toNat ∈ [0x8, 0x9, 0xA, 0xB, 0xC, 0xD, 0xF] := by
  have hlt := (fieldN op).isLt
  unfold decodeFamily8
  split
  case h_10 =>
    simp only [imp_false, List.mem_cons, List.not_mem_nil, true_iff] at *
    omega
  all_goals simp_all

theorem decodeFamilyE_rejected_iff :
    decodeFamilyE op = .rejected (.unknownOpcode op) ↔ (fieldNN op).toNat ∉ [0x9E, 0xA1] := by
  unfold decodeFamilyE
  split <;> simp_all

theorem decodeFamilyF_rejected_iff :
    decodeFamilyF op = .rejected (.unknownOpcode op) ↔
      (fieldNN op).toNat ∉ [0x07, 0x0A, 0x15, 0x18, 0x1E, 0x29, 0x33, 0x55, 0x65] := by
  unfold decodeFamilyF
  split <;> simp_all

/-- The table of illegal words (R67), on the fields of the word. -/
theorem decode_rejected_iff :
    decode op = .rejected (.unknownOpcode op) ↔
      ((fieldFamily op).toNat = 0x5 ∧ (fieldN op).toNat ≠ 0) ∨
      ((fieldFamily op).toNat = 0x8 ∧ (fieldN op).toNat ∈ [0x8, 0x9, 0xA, 0xB, 0xC, 0xD, 0xF]) ∨
      ((fieldFamily op).toNat = 0x9 ∧ (fieldN op).toNat ≠ 0) ∨
      ((fieldFamily op).toNat = 0xE ∧ (fieldNN op).toNat ∉ [0x9E, 0xA1]) ∨
      ((fieldFamily op).toNat = 0xF ∧
        (fieldNN op).toNat ∉ [0x07, 0x0A, 0x15, 0x18, 0x1E, 0x29, 0x33, 0x55, 0x65]) := by
  unfold decode
  split
  case h_1 hk => simp [hk, decodeFamily0_ne_rejected]
  case h_6 hk | h_10 hk => simp [hk, BitVec.toNat_eq]
  case h_9 hk => simp [hk, decodeFamily8_rejected_iff]
  case h_15 hk => simp [hk, decodeFamilyE_rejected_iff]
  case h_16 =>
    have hlt := (fieldFamily op).isLt
    have hk : (fieldFamily op).toNat = 0xF := by simp only [imp_false] at *; omega
    simp [hk, decodeFamilyF_rejected_iff]
  all_goals simp [*]

/-- "Carrying the raw 16-bit value" (R67). -/
theorem eq_unknownOpcode_of_decode {e : DecodeError} (h : decode op = .rejected e) : e = .unknownOpcode op := by
  simp only [decode, decodeFamily0, decodeFamily8, decodeFamilyE, decodeFamilyF] at h
  repeat' split at h
  all_goals cases h <;> rfl

end

end Sys2Proof

namespace Sys2Proof.Laws.RowPattern

/-- Every instruction's word carries its row's pattern (R64). -/
theorem of_instr (i : Instr) : Statement i := by
  cases i
  exacts [sysNoop _, clearScreen, ret, jump _, call _, skipEqByte _ _, skipNeByte _ _, skipEqReg _ _, loadByte _ _,
    addByte _ _, loadReg _ _, orReg _ _, andReg _ _, xorReg _ _, addReg _ _, sub _ _, shiftRight _ _, subn _ _,
    shiftLeft _ _, skipNeReg _ _, loadIndex _, jumpOffset _, random _ _, draw _ _ _, skipKeyPressed _,
    skipKeyNotPressed _, loadDelay _, awaitKey _, storeDelay _, loadSoundStore _, addIndex _, fontAddress _,
    storeBcd _, storeBlock _, loadBlock _]

end Sys2Proof.Laws.RowPattern

namespace Sys2Proof

/-! ### Rows of the opcode table (R64) -/

section
variable {op w : Word}

/-- Words that agree under a row's mask agree in the fields the mask covers. -/
theorem fieldFamily_eq_of_and_F000 (h : op &&& 0xF000 = w &&& 0xF000) : fieldFamily op = fieldFamily w := by
  simpa only [and_F000, fieldFamily_nnn] using congrArg fieldFamily h

theorem fields_eq_of_and_F00F (h : op &&& 0xF00F = w &&& 0xF00F) :
    fieldFamily op = fieldFamily w ∧ fieldN op = fieldN w := by
  rw [and_F00F, and_F00F] at h
  exact ⟨by simpa using congrArg fieldFamily h, by simpa using congrArg fieldN h⟩

theorem fields_eq_of_and_F0FF (h : op &&& 0xF0FF = w &&& 0xF0FF) :
    fieldFamily op = fieldFamily w ∧ fieldNN op = fieldNN w := by
  rw [and_F0FF, and_F0FF] at h
  exact ⟨by simpa using congrArg fieldFamily h, by simpa using congrArg fieldNN h⟩

end

/-- The instruction of the same row whose operands are the fields of the word (R63). -/
def Instr.withFields (op : Word) : Instr → Instr
  | .sysNoop _ => .sysNoop (fieldNNN op)
  | .clearScreen => .clearScreen
  | .ret => .ret
  | .jump _ => .jump (fieldNNN op)
  | .call _ => .call (fieldNNN op)
  | .skipEqByte _ _ => .skipEqByte (fieldX op) (fieldNN op)
  | .skipNeByte _ _ => .skipNeByte (fieldX op) (fieldNN op)
  | .skipEqReg _ _ => .skipEqReg (fieldX op) (fieldY op)
  | .loadByte _ _ => .loadByte (fieldX op) (fieldNN op)
  | .addByte _ _ => .addByte (fieldX op) (fieldNN op)
  | .loadReg _ _ => .loadReg (fieldX op) (fieldY op)
  | .orReg _ _ => .orReg (fieldX op) (fieldY op)
  | .andReg _ _ => .andReg (fieldX op) (fieldY op)
  | .xorReg _ _ => .xorReg (fieldX op) (fieldY op)
  | .addReg _ _ => .addReg (fieldX op) (fieldY op)
  | .sub _ _ => .sub (fieldX op) (fieldY op)
  | .shiftRight _ _ => .shiftRight (fieldX op) (fieldY op)
  | .subn _ _ => .subn (fieldX op) (fieldY op)
  | .shiftLeft _ _ => .shiftLeft (fieldX op) (fieldY op)
  | .skipNeReg _ _ => .skipNeReg (fieldX op) (fieldY op)
  | .loadIndex _ => .loadIndex (fieldNNN op)
  | .jumpOffset _ => .jumpOffset (fieldNNN op)
  | .random _ _ => .random (fieldX op) (fieldNN op)
  | .draw _ _ _ => .draw (fieldX op) (fieldY op) (fieldN op)
  | .skipKeyPressed _ => .skipKeyPressed (fieldX op)
  | .skipKeyNotPressed _ => .skipKeyNotPressed (fieldX op)
  | .loadDelay _ => .loadDelay (fieldX op)
  | .awaitKey _ => .awaitKey (fieldX op)
  | .storeDelay _ => .storeDelay (fieldX op)
  | .loadSoundStore _ => .loadSoundStore (fieldX op)
  | .addIndex _ => .addIndex (fieldX op)
  | .fontAddress _ => .fontAddress (fieldX op)
  | .storeBcd _ => .storeBcd (fieldX op)
  | .storeBlock _ => .storeBlock (fieldX op)
  | .loadBlock _ => .loadBlock (fieldX op)

section
variable {op : Word} {j : Instr}

@[simp] theorem rowMask_withFields : rowMask (j.withFields op) = rowMask j := by cases j <;> rfl

@[simp] theorem rowMatch_withFields : rowMatch (j.withFields op) = rowMatch j := by cases j <;> rfl

/-- A word that selects a row is the word of the row's instruction with the word's own fields: under the row's mask it
agrees with every word of that row. -/
theorem encode_withFields (h : op &&& rowMask j = rowMatch j) : encode (j.withFields op) = op := by
  have hrow : op &&& rowMask j = encode j &&& rowMask j := h.trans (Laws.RowPattern.of_instr j).symm
  cases j with
  | clearScreen | ret => exact h.symm.trans BitVec.and_allOnes
  | sysNoop _ | jump _ | call _ | loadIndex _ | jumpOffset _ =>
    exact nnn_of_fields ((fieldFamily_eq_of_and_F000 hrow).trans (fieldFamily_nnn _ _))
  | skipEqByte _ _ | skipNeByte _ _ | loadByte _ _ | addByte _ _ | random _ _ =>
    exact xnn_of_fields ((fieldFamily_eq_of_and_F000 hrow).trans (fieldFamily_xnn _ _ _)) rfl
  | draw _ _ _ => exact xyn_of_fields ((fieldFamily_eq_of_and_F000 hrow).trans (fieldFamily_xyn _ _ _ _)) rfl
  | skipEqReg _ _ | skipNeReg _ _ | loadReg _ _ | orReg _ _ | andReg _ _ | xorReg _ _ | addReg _ _ | sub _ _
  | shiftRight _ _ | subn _ _ | shiftLeft _ _ =>
    obtain ⟨hf, hn⟩ := fields_eq_of_and_F00F hrow
    exact xyn_of_fields (hf.trans (fieldFamily_xyn _ _ _ _)) (hn.trans (fieldN_xyn _ _ _ _))
  | skipKeyPressed _ | skipKeyNotPressed _ | loadDelay _ | awaitKey _ | storeDelay _ | loadSoundStore _ | addIndex _
  | fontAddress _ | storeBcd _ | storeBlock _ | loadBlock _ =>
    obtain ⟨hf, hnn⟩ := fields_eq_of_and_F0FF hrow
    exact xnn_of_fields (hf.trans (fieldFamily_xnn _ _ _)) (hnn.trans (fieldNN_xnn _ _ _))

end

end Sys2Proof

namespace Sys2Proof.Safety

open Sys2Proof.Machine

/-- Settles O11: the decoder undoes the encoder on the word, and the word is what its two bytes make. -/
theorem decodeUndoesEncode : Obligations.DecodeUndoesEncode := by
  intro i rest h
  have hw := decode_encode h
  exact ⟨hw, by simp [encodeBytes, decodeBytes, hw]⟩

/-- Settles O12, by the branches of the decoder. -/
theorem encodeUndoesDecode : Obligations.EncodeUndoesDecode := fun _ _ => encode_of_decode

/-- Settles O13: a rejection carries the word, and the five kinds are those of the decoder's branches, by fields. -/
theorem rejectedWordsAreTheListedOnes : Obligations.RejectedWordsAreTheListedOnes := by
  intro op
  constructor
  · cases hd : decode op with
    | instr i => exact .inr ⟨i, rfl⟩
    | rejected e => rw [eq_unknownOpcode_of_decode hd]; exact .inl rfl
  · have h := decode_rejected_iff (op := op)
    rwa [toNat_fieldFamily, toNat_fieldN, toNat_fieldNN] at h

/-- Settles O14: a decoded word is its instruction's word, which has the row's pattern; a word that selects a row is the
word of an instruction of that row, which the decoder gives back. -/
theorem wordsSelectTheirRow : Obligations.WordsSelectTheirRow := by
  constructor
  · intro op i h
    obtain ⟨-, rfl⟩ := encode_of_decode h
    exact Laws.RowPattern.of_instr i
  · intro op j h
    by_cases hcls : op = 0x00E0
    · exact ⟨.clearScreen, hcls ▸ rfl, .inl hcls⟩
    by_cases hret : op = 0x00EE
    · exact ⟨.ret, hret ▸ rfl, .inr (.inl hret)⟩
    have hop : encode (j.withFields op) = op := encode_withFields h
    have hwf : (j.withFields op).WellFormed := wellFormed_of_encode_ne (hop.symm ▸ hcls) (hop.symm ▸ hret)
    exact ⟨j.withFields op, (congrArg decode hop).symm.trans (decode_encode hwf),
      .inr (.inr ⟨rowMask_withFields, rowMatch_withFields⟩)⟩

/-- Settles O15: the decoder evaluated on the twenty-one words. -/
theorem specExampleWordsDecode : Obligations.SpecExampleWordsDecode := by
  unfold Obligations.SpecExampleWordsDecode
  decide

end Sys2Proof.Safety
end

section
/-! SUPPORT. The line of R60 a step takes, and that every transaction answers a next state (log entry 7). -/

namespace Sys2Proof.Machine

section
variable {s : State}

theorem step_of_halted (hh : s.halted = true) : step s = .next s := if_pos hh

theorem step_of_fetch_none (hh : s.halted = false) (hf : s.fetch s.pc = none) :
    step s = .next (s.raise .fetchOutOfBounds 0 0) := by
  simp [step, cycle, hh, hf]

/-- The word a fetch gives, by the value of its two bytes (R42, R43). -/
theorem State.fetch_of_toNat_eq {a op : Word} (ha : a.toNat ≤ 0xFFE)
    (hop : op.toNat = (s.byte a.toNat).toNat * 256 + (s.byte (a.toNat + 1)).toNat) : s.fetch a = some op := by
  rw [State.fetch_of_le ha, Option.some_inj]
  exact BitVec.eq_of_toNat_eq ((toNat_wordOfBytes _ _).trans hop.symm)

end

end Sys2Proof.Machine

namespace Sys2Proof.Safety

open Sys2Proof.Machine

/-- Settles O7, one lemma for each line of R60. -/
theorem stepRunsDecodedInstruction : Obligations.StepRunsDecodedInstruction := by
  have running {s : State} (hr : Running s) : s.halted = false := (halted_eq_false_iff s).mpr hr
  exact ⟨fun s hs => step_of_halted ((halted_eq_true_iff s).mpr hs),
    fun s hr hpc => step_of_fetch_none (running hr) (State.fetch_of_gt hpc),
    fun s op e hr hpc hop => step_of_decode_rejected (running hr) (State.fetch_of_toNat_eq hpc hop),
    fun s op i hr hpc hop => step_of_decode_instr (running hr) (State.fetch_of_toNat_eq hpc hop)⟩

/-- No instruction ends the machine: it raises its listed fault, or it completes. -/
theorem exec_exists_next (i : Instr) (s : State) : ∃ t, exec i s = .next t := by
  by_cases hf : ExecuteFault i s
  · exact ⟨_, exec_of_executeFault hf⟩
  cases i with
  | ret => obtain ⟨a, u, -, e⟩ := exec_ret_of_not_fault hf; exact ⟨_, e⟩
  | call nnn => obtain ⟨u, -, e⟩ := exec_call_of_not_fault hf; exact ⟨_, e⟩
  | draw x y n => obtain ⟨fb, flag, e⟩ := exec_draw_of_not_fault hf; exact ⟨_, e⟩
  | storeBcd x => exact ⟨_, exec_storeBcd_of_not_fault hf⟩
  | storeBlock x => exact ⟨_, exec_storeBlock_of_not_fault hf⟩
  | loadBlock x => exact ⟨_, exec_loadBlock_of_not_fault hf⟩
  | skipKeyPressed x => exact ⟨_, exec_skipKeyPressed_of_not_fault hf⟩
  | skipKeyNotPressed x => exact ⟨_, exec_skipKeyNotPressed_of_not_fault hf⟩
  | awaitKey x =>
    cases hk : s.firstKey with
    | none => exact ⟨_, exec_awaitKey_of_no_key hk⟩
    | some k => exact ⟨_, exec_awaitKey_of_firstKey hk⟩
  | _ => exact ⟨_, rfl⟩

theorem step_exists_next (s : State) : ∃ t, step s = .next t := by
  cases hh : s.halted with
  | true => exact ⟨s, step_of_halted hh⟩
  | false =>
    cases hf : s.fetch s.pc with
    | none => exact ⟨_, step_of_fetch_none hh hf⟩
    | some op =>
      cases hd : decode op with
      | rejected e => exact ⟨_, step_of_decode_rejected hh hf hd⟩
      | instr i => rw [step_of_decode_instr hh hf hd]; exact exec_exists_next i s

theorem transact_exists_next (tr : Transaction) (s : State) : ∃ t, transact tr s = .next t := by
  cases tr with
  | step => exact step_exists_next s
  | reset | loadProgram _ | tick | setKey _ _ => exact ⟨_, rfl⟩

theorem runTransactions_exists_next (ts : List Transaction) (s : State) : ∃ t, runTransactions ts s = .next t := by
  induction ts generalizing s with
  | nil => exact ⟨s, rfl⟩
  | cons tr rest ih =>
    obtain ⟨u, hu⟩ := transact_exists_next tr s
    simpa only [runTransactions, hu] using ih u

/-- Settles O6: instruction by instruction, then line by line of R60, then by induction on the transactions. -/
theorem everyTransactionGivesANextState : Obligations.EveryTransactionGivesANextState :=
  ⟨exec_exists_next, step_exists_next, runTransactions_exists_next⟩

end Sys2Proof.Safety
end

section
/-! SUPPORT. Control transfer (40_flow.md R80 to R89): what a push and a pop leave in the stack, and where the skips and
the jumps go. -/

namespace Sys2Proof.Machine

section
variable {s t : State} {w : Word}

/-! ### The stack of return addresses (R17) -/

theorem State.push_sp (h : s.push w = some t) : t.sp.val = s.sp.val + 1 := by
  unfold State.push at h
  split at h <;> cases h
  rfl

/-- A push fills slot `SP` and keeps the others. -/
theorem State.push_stack (h : s.push w = some t) (j : Fin 31) :
    t.stack[j.val] = if j.val = s.sp.val then w else s.stack[j.val] := by
  unfold State.push at h
  split at h <;> cases h
  rw [Vector.getElem_set]
  exact if_congr eq_comm rfl rfl

theorem State.pop_sp (h : s.pop = some (w, t)) : t.sp.val = s.sp.val - 1 := by
  unfold State.pop at h
  split at h <;> cases h
  rfl

theorem State.pop_stack (h : s.pop = some (w, t)) : t.stack = s.stack := by
  unfold State.pop at h
  split at h <;> cases h
  rfl

/-- A pop answers the content of the last live slot. -/
theorem State.pop_word (h : s.pop = some (w, t)) {j : Fin 31} (hj : j.val + 1 = s.sp.val) : w = s.stack[j.val] := by
  unfold State.pop at h
  split at h <;> cases h
  simp [← hj]

end

/-! ### The skips (R84 to R87) -/

theorem State.skipIf_beq_pc (s : State) (a b : Byte) :
    (s.skipIf (a == b)).pc = if a.toNat = b.toNat then s.pc + 4 else s.pc + 2 := by
  by_cases h : a = b <;> simp [h, ← BitVec.toNat_eq]

theorem State.skipIf_bne_pc (s : State) (a b : Byte) :
    (s.skipIf (a != b)).pc = if a.toNat = b.toNat then s.pc + 2 else s.pc + 4 := by
  by_cases h : a = b <;> simp [h, ← BitVec.toNat_eq]

end Sys2Proof.Machine

namespace Sys2Proof.Safety

open Sys2Proof.Machine

section
variable {s : State}

/-- call with room (R83): its own address goes into slot `SP`, the other slots stay. -/
theorem exec_call_of_room (nnn : Addr12) (h : s.sp.val < s.config.stackDepth.val) :
    ∃ t, exec (.call nnn) s = .next t ∧ t.pc = zextAddr nnn ∧ t.sp.val = s.sp.val + 1 ∧
      (∀ j : Fin 31, t.stack[j.val] = if j.val = s.sp.val then s.pc else s.stack[j.val]) ∧
      OnlyChanges [.stack, .sp, .pc] s t := by
  obtain ⟨u, hu, e⟩ := exec_call_of_not_fault (nnn := nnn) (Nat.not_le.mpr h)
  have hsp := State.push_sp hu
  have hstack := State.push_stack hu
  exact ⟨_, e, rfl, hsp, hstack, (onlyChanges_push s hu).trans (onlyChanges_setPC u _)⟩

/-- return with a live entry (R81): `PC` passes the address in the last live slot, and every slot stays. -/
theorem exec_ret_of_live (h : 0 < s.sp.val) :
    ∃ t, exec .ret s = .next t ∧ t.sp.val = s.sp.val - 1 ∧ t.stack = s.stack ∧
      (∀ j : Fin 31, j.val + 1 = s.sp.val → t.pc = s.stack[j.val] + 2) ∧ OnlyChanges [.sp, .pc] s t := by
  obtain ⟨a, u, hu, e⟩ := exec_ret_of_not_fault (Nat.ne_of_gt h)
  have hsp := State.pop_sp hu
  have hstack := State.pop_stack hu
  exact ⟨_, e, hsp, hstack, fun j hj => congrArg (· + 2) (State.pop_word hu hj),
    (onlyChanges_pop s hu).trans (onlyChanges_setPC u _)⟩

end

/-- The target of jump-offset (R88) is the exact sum: a 12-bit field and a byte do not wrap 16 bits. -/
theorem toNat_jumpOffset (nnn : Addr12) (b : Byte) :
    (zextAddr nnn + zextByte b).toNat = nnn.toNat + b.toNat := by
  have := nnn.isLt
  have := b.isLt
  rw [BitVec.toNat_add, toNat_zextAddr, toNat_zextByte]
  omega

/-- Settles O23: the call saved its address in slot `SP`, the last live one at the return, which passes it. -/
theorem returnResumesAfterItsCall : Obligations.ReturnResumesAfterItsCall := by
  intro nnn s t u room hcall hsp hlive
  obtain ⟨t', e, -, htsp, htstack, -⟩ := exec_call_of_room nnn room
  cases e.symm.trans hcall
  have husp : u.sp.val = s.sp.val + 1 := hsp ▸ htsp
  obtain ⟨w, hret, hwsp, hwstack, hwpc, -⟩ := exec_ret_of_live (s := u) (by omega)
  refine ⟨w, hret, ?_, Fin.ext (by omega), fun j hj => ?_⟩
  · have top : (⟨s.sp.val, by omega⟩ : Fin 31).val < t.sp.val := by simp only; omega
    rw [hwpc ⟨s.sp.val, by omega⟩ husp.symm, hlive _ top, htstack, if_pos rfl]
  · simp only [hwstack]
    rw [hlive j (by omega), htstack, if_neg (by omega)]

/-- Settles O16: the decoder undoes the encoder on every field but the two excepted. -/
theorem sysNoopOnlyAdvances : Obligations.SysNoopOnlyAdvances := by
  intro nnn s
  refine ⟨fun hcls hret => ?_, s.advance, rfl, rfl, onlyChanges_advance s⟩
  have hwf : (Instr.sysNoop nnn).WellFormed := by
    simpa [Instr.WellFormed, Instr.wellFormed] using And.intro hcls hret
  exact decode_encode (i := .sysNoop nnn) hwf

/-- Settles O17: the zero-extended target has the target's value. -/
theorem jumpSetsPC : Obligations.JumpSetsPC := fun nnn s =>
  ⟨decode_encode (i := .jump nnn) rfl, s.setPC (zextAddr nnn), rfl, toNat_zextAddr nnn, onlyChanges_setPC s _⟩

/-- Settles O18: the target is the exact sum. -/
theorem jumpOffsetAddsV0 : Obligations.JumpOffsetAddsV0 := fun nnn s =>
  ⟨decode_encode (i := .jumpOffset nnn) rfl, s.setPC (zextAddr nnn + zextByte (s.reg 0)), rfl,
    toNat_jumpOffset nnn (s.reg 0), onlyChanges_setPC s _⟩

/-- Settles O19: below `STACK_DEPTH` the push succeeds. -/
theorem callSavesItsAddress : Obligations.CallSavesItsAddress := by
  intro nnn s room
  obtain ⟨t, e, hpc, hsp, hstack, hframe⟩ := exec_call_of_room nnn room
  exact ⟨decode_encode (i := .call nnn) rfl, t, e, hpc ▸ toNat_zextAddr nnn, hsp, hstack, hframe⟩

/-- Settles O20: a full stack is the listed fault of call. -/
theorem callOverflowsWhenFull : Obligations.CallOverflowsWhenFull := fun nnn _ =>
  traps_of_executeFault (i := .call nnn)

/-- Settles O21: above 0 the pop succeeds. -/
theorem returnGoesPastTheCall : Obligations.ReturnGoesPastTheCall := by
  intro s live
  obtain ⟨t, e, hsp, -, hpc, hframe⟩ := exec_ret_of_live live
  exact ⟨decode_encode (i := .ret) rfl, t, e, hsp, fun j hj => hpc j hj ▸ BitVec.toNat_add _ 2, hframe⟩

/-- Settles O22: an empty stack is the listed fault of return. -/
theorem returnUnderflowsWhenEmpty : Obligations.ReturnUnderflowsWhenEmpty := fun _ =>
  traps_of_executeFault (i := .ret)

/-- Settles O24: both skips are `skipIf` on the compared bytes. -/
theorem byteSkipsCompare : Obligations.ByteSkipsCompare := fun x nn s =>
  ⟨decode_encode (i := .skipEqByte x nn) rfl, decode_encode (i := .skipNeByte x nn) rfl,
    ⟨_, rfl, s.skipIf_beq_pc _ _, onlyChanges_skipIf s _⟩, ⟨_, rfl, s.skipIf_bne_pc _ _, onlyChanges_skipIf s _⟩⟩

/-- Settles O25: both skips are `skipIf` on the compared registers, and R67 lists their families with `n` not 0. -/
theorem registerSkipsCompare : Obligations.RegisterSkipsCompare := by
  intro x y s
  refine ⟨decode_encode (i := .skipEqReg x y) rfl, decode_encode (i := .skipNeReg x y) rfl, fun n hn => ?_,
    ⟨_, rfl, s.skipIf_beq_pc _ _, onlyChanges_skipIf s _⟩, ⟨_, rfl, s.skipIf_bne_pc _ _, onlyChanges_skipIf s _⟩⟩
  have sub (f : Nibble) : (fieldN (f ++ x ++ y ++ n)).toNat ≠ 0 := by
    rw [fieldN_xyn]
    exact fun h => hn (BitVec.eq_of_toNat_eq h)
  have family (f : Nibble) : (fieldFamily (f ++ x ++ y ++ n)).toNat = f.toNat := by rw [fieldFamily_xyn]
  exact ⟨decode_rejected_iff.mpr (.inl ⟨family 0x5#4, sub 0x5#4⟩),
    decode_rejected_iff.mpr (.inr (.inr (.inl ⟨family 0x9#4, sub 0x9#4⟩)))⟩

end Sys2Proof.Safety
end

section
/-! SUPPORT. The register instructions (41_alu.md R100 to R112): a register write and the frame of the instructions that
end in one, the flag bytes as numbers, and the model's own counter of random bytes, which only random reads (R111). -/

namespace Sys2Proof.Machine

/-! ### The flags (R12) -/

theorem toNat_flagByte (on : Bool) : (flagByte on).toNat = if on then 1 else 0 := by cases on <;> rfl

theorem toNat_carryFlag (a b : Byte) : (carryFlag a b).toNat = if a.toNat + b.toNat > 255 then 1 else 0 := by
  simp only [carryFlag, toNat_flagByte, decide_eq_true_eq]

theorem toNat_notBorrowFlag (a b : Byte) : (notBorrowFlag a b).toNat = if a.toNat ≥ b.toNat then 1 else 0 := by
  simp only [notBorrowFlag, toNat_flagByte, decide_eq_true_eq, ge_iff_le]

theorem toNat_lostLowFlag (a : Byte) : (lostLowFlag a).toNat = a.toNat % 2 := by
  have hbit : a.getLsbD 0 = decide (a.toNat % 2 = 1) := Nat.testBit_zero _
  simp only [lostLowFlag, toNat_flagByte, hbit, decide_eq_true_eq]
  split <;> omega

theorem toNat_lostHighFlag (a : Byte) : (lostHighFlag a).toNat = a.toNat / 128 := by
  have hlt := a.isLt
  have hbit : a.getLsbD 7 = decide (a.toNat / 128 % 2 = 1) := Nat.testBit_eq_decide_div_mod_eq
  simp only [lostHighFlag, toNat_flagByte, hbit, decide_eq_true_eq]
  split <;> omega

/-! ### The results (R106 to R110) -/

/-- A byte difference, plus 256 on a borrow (R107). -/
theorem toNat_sub_byte (a b : Byte) :
    (a - b).toNat = if a.toNat ≥ b.toNat then a.toNat - b.toNat else a.toNat + 256 - b.toNat := by
  have ha := a.isLt
  have hb := b.isLt
  rw [BitVec.toNat_sub]
  split <;> omega

theorem toNat_shiftRight_one (a : Byte) : (a >>> 1).toNat = a.toNat / 2 := by
  rw [BitVec.toNat_ushiftRight, Nat.shiftRight_one]

theorem toNat_shiftLeft_one (a : Byte) : (a <<< 1).toNat = 2 * a.toNat % 256 := by
  rw [BitVec.toNat_shiftLeft, Nat.shiftLeft_eq, Nat.mul_comm]

/-! ### Another counter of random bytes -/

/-- The state with another counter of random bytes. -/
def State.withDraws (s : State) (d : Nat) : State := { s with draws := d }

section
variable (s : State) (d : Nat)

@[simp] theorem State.withDraws_pc : (s.withDraws d).pc = s.pc := rfl

theorem State.push_withDraws (w : Word) : (s.withDraws d).push w = (s.push w).map (·.withDraws d) := by
  rcases Nat.lt_or_ge s.sp.val s.config.stackDepth.val with room | full
  · rw [State.push_of_room s w room, State.push_of_room (s.withDraws d) w room]
    rfl
  · rw [State.push_of_full s w full, State.push_of_full (s.withDraws d) w full]
    rfl

theorem State.pop_withDraws : (s.withDraws d).pop = s.pop.map fun (a, t) => (a, t.withDraws d) := by
  rcases Nat.eq_zero_or_pos s.sp.val with empty | live
  · rw [State.pop_of_empty s empty, State.pop_of_empty (s.withDraws d) empty]
    rfl
  · rw [State.pop_of_live s live, State.pop_of_live (s.withDraws d) live]
    rfl

theorem State.setRegsFrom_withDraws (k : Nat) (bytes : List Byte) :
    (s.withDraws d).setRegsFrom k bytes = (s.setRegsFrom k bytes).withDraws d := by
  induction bytes generalizing s k with
  | nil => rfl
  | cons b rest ih => exact ih (s.setReg (BitVec.ofNat 4 k) b) (k + 1)

end

end Sys2Proof.Machine

namespace Sys2Proof.Safety

open Sys2Proof.Machine

section
variable {i : Instr} {s t : State}

/-- Of the instructions that complete, only random looks at the counter: the others meet the same operands under another
one and make the same updates. -/
theorem exec_withDraws_of_not_fault (hi : ∀ x nn, i ≠ .random x nn) (hn : ¬ExecuteFault i s) (h : exec i s = .next t)
    (d : Nat) : exec i (s.withDraws d) = .next (t.withDraws d) := by
  have hn' : ¬ExecuteFault i (s.withDraws d) := hn
  cases i with
  | random x nn => exact absurd rfl (hi x nn)
  | call nnn =>
    obtain ⟨u, hu, e⟩ := exec_call_of_not_fault hn
    obtain ⟨u', hu', e'⟩ := exec_call_of_not_fault hn'
    rw [State.withDraws_pc, State.push_withDraws, hu] at hu'
    cases hu'
    cases e.symm.trans h
    exact e'
  | ret =>
    obtain ⟨a, u, hu, e⟩ := exec_ret_of_not_fault hn
    obtain ⟨a', u', hu', e'⟩ := exec_ret_of_not_fault hn'
    rw [State.pop_withDraws, hu] at hu'
    cases hu'
    cases e.symm.trans h
    exact e'
  | draw x y n =>
    cases (exec_draw_eq_of_not_fault hn).symm.trans h
    exact exec_draw_eq_of_not_fault hn'
  | skipKeyPressed x =>
    cases (exec_skipKeyPressed_of_not_fault hn).symm.trans h
    exact exec_skipKeyPressed_of_not_fault hn'
  | skipKeyNotPressed x =>
    cases (exec_skipKeyNotPressed_of_not_fault hn).symm.trans h
    exact exec_skipKeyNotPressed_of_not_fault hn'
  | awaitKey x =>
    have same : (s.withDraws d).firstKey = s.firstKey := rfl
    cases hk : s.firstKey with
    | none =>
      cases (exec_awaitKey_of_no_key hk).symm.trans h
      exact exec_awaitKey_of_no_key (same.trans hk)
    | some k =>
      cases (exec_awaitKey_of_firstKey hk).symm.trans h
      exact exec_awaitKey_of_firstKey (same.trans hk)
  | storeBcd x =>
    cases (exec_storeBcd_of_not_fault hn).symm.trans h
    exact exec_storeBcd_of_not_fault hn'
  | storeBlock x =>
    cases (exec_storeBlock_of_not_fault hn).symm.trans h
    exact exec_storeBlock_of_not_fault hn'
  | loadBlock x =>
    cases (exec_loadBlock_of_not_fault hn).symm.trans h
    rw [exec_loadBlock_of_not_fault hn', State.setRegsFrom_withDraws]
    rfl
  | _ => cases Host.Outcome.next.inj h; rfl

/-- An instruction other than random commutes with a change of the counter, whether it faults or not (R111, R169). -/
theorem exec_withDraws (hi : ∀ x nn, i ≠ .random x nn) (h : exec i s = .next t) (d : Nat) :
    exec i (s.withDraws d) = .next (t.withDraws d) := by
  by_cases hf : ExecuteFault i s
  · cases (exec_of_executeFault hf).symm.trans h
    exact exec_of_executeFault (s := s.withDraws d) hf
  · exact exec_withDraws_of_not_fault hi hf h d

/-- An instruction that ends in a result and a flag: VF holds the flag, also where VF is the result's register, since the
flag is written last (R13, decision D12). -/
theorem exec_resultAndFlag {x : Nibble} {result flag : Byte} {r f : Nat}
    (h : exec i s = .next (s.setResultAndFlag x result flag)) (hresult : result.toNat = r) (hflag : flag.toNat = f) :
    ∃ t, exec i s = .next t ∧ (x ≠ vf → (t.reg x).toNat = r) ∧ (t.reg vf).toNat = f ∧
      (∀ q, q ≠ x → q ≠ vf → t.reg q = s.reg q) ∧ t.pc = s.pc + 2 ∧ OnlyChanges [.v, .pc] s t := by
  refine ⟨_, h, fun hx => ?_, ?_, fun q hq hqf => ?_, rfl, onlyChanges_setResultAndFlag s x result flag⟩
  · rw [State.reg_setResultAndFlag, if_neg hx, if_pos rfl, hresult]
  · rw [State.reg_setResultAndFlag, if_pos rfl, hflag]
  · rw [State.reg_setResultAndFlag, if_neg hqf, if_neg hq]

/-- An instruction that ends in a register write: `P` of the byte is `P` of the register after, VF like any other. -/
theorem exec_setReg (P : Byte → Prop) {x : Nibble} {b : Byte} (h : exec i s = .next (s.setReg x b).advance) (hb : P b) :
    ∃ t, exec i s = .next t ∧ P (t.reg x) ∧ (∀ q, q ≠ x → t.reg q = s.reg q) ∧ t.pc = s.pc + 2 ∧
      OnlyChanges [.v, .pc] s t := by
  refine ⟨_, h, ?_, fun q hq => State.reg_setReg_ne s x b hq, rfl,
    (onlyChanges_setReg s x b).trans (onlyChanges_advance _)⟩
  rwa [State.advance_reg, State.reg_setReg_same]

end

/-- Settles O30: the carry flag is the exact sum compared with 255. -/
theorem addRegGivesSumAndCarry : Obligations.AddRegGivesSumAndCarry := fun x y s =>
  ⟨decode_encode (i := .addReg x y) rfl,
    exec_resultAndFlag rfl (BitVec.toNat_add (s.reg x) (s.reg y)) (toNat_carryFlag _ _)⟩

/-- Settles O31: subn is sub with the operands exchanged. -/
theorem subtractionsGiveDifferenceAndNotBorrow : Obligations.SubtractionsGiveDifferenceAndNotBorrow := fun x y s =>
  ⟨decode_encode (i := .sub x y) rfl, decode_encode (i := .subn x y) rfl,
    exec_resultAndFlag rfl (toNat_sub_byte (s.reg x) (s.reg y)) (toNat_notBorrowFlag _ _),
    exec_resultAndFlag rfl (toNat_sub_byte (s.reg y) (s.reg x)) (toNat_notBorrowFlag _ _)⟩

/-- Settles O32: the lost bit is the remainder of the halving, or the quotient by 128 of the doubling. -/
theorem shiftsGiveResultAndLostBit : Obligations.ShiftsGiveResultAndLostBit := fun x y s =>
  ⟨decode_encode (i := .shiftRight x y) rfl, decode_encode (i := .shiftLeft x y) rfl,
    exec_resultAndFlag rfl (toNat_shiftRight_one (s.reg x)) (toNat_lostLowFlag _),
    exec_resultAndFlag rfl (toNat_shiftLeft_one (s.reg x)) (toNat_lostHighFlag _)⟩

/-- Settles O34: every other instruction commutes with a change of the counter. -/
theorem othersIgnoreTheRandomByte : Obligations.OthersIgnoreTheRandomByte := fun _ _ _ d hi h => exec_withDraws hi h d

/-- Settles O26: a register write of the immediate. -/
theorem loadByteSetsRegister : Obligations.LoadByteSetsRegister := fun x nn _ =>
  ⟨decode_encode (i := .loadByte x nn) rfl, exec_setReg (· = nn) rfl rfl⟩

/-- Settles O27: a register write of the byte sum, which wraps at 256. -/
theorem addByteWrapsWithoutFlag : Obligations.AddByteWrapsWithoutFlag := fun x nn s =>
  ⟨decode_encode (i := .addByte x nn) rfl,
    exec_setReg (fun b => b.toNat = ((s.reg x).toNat + nn.toNat) % 256) rfl (BitVec.toNat_add _ _)⟩

/-- Settles O28: a register write of the other register. -/
theorem loadRegCopies : Obligations.LoadRegCopies := fun x y s =>
  ⟨decode_encode (i := .loadReg x y) rfl, exec_setReg (· = s.reg y) rfl rfl⟩

/-- Settles O29: register writes of the bitwise or, and, exclusive or. -/
theorem logicWorksBitByBit : Obligations.LogicWorksBitByBit := fun x y s =>
  ⟨decode_encode (i := .orReg x y) rfl, decode_encode (i := .andReg x y) rfl, decode_encode (i := .xorReg x y) rfl,
    exec_setReg (fun b => ∀ k, b.getLsbD k = ((s.reg x).getLsbD k || (s.reg y).getLsbD k)) rfl
      fun _ => BitVec.getLsbD_or,
    exec_setReg (fun b => ∀ k, b.getLsbD k = ((s.reg x).getLsbD k && (s.reg y).getLsbD k)) rfl
      fun _ => BitVec.getLsbD_and,
    exec_setReg (fun b => ∀ k, b.getLsbD k = ((s.reg x).getLsbD k ^^ (s.reg y).getLsbD k)) rfl
      fun _ => BitVec.getLsbD_xor⟩

/-- Settles O33: a register write of the masked byte, and the count of it. -/
theorem randomMasksTheFreeByte : Obligations.RandomMasksTheFreeByte := by
  intro x nn s
  have written : (s.setReg x (s.rnd &&& nn)).countDraw.advance.reg x = s.rnd &&& nn := State.reg_setReg_same s x _
  refine ⟨decode_encode (i := .random x nn) rfl, _, rfl, fun k => ?_, fun hnn => ?_,
    fun q hq => State.reg_setReg_ne s x _ hq, rfl, rfl, exec_onlyChanges (i := .random x nn) rfl⟩
  · rw [written, BitVec.getLsbD_and, Bool.and_comm]
    rfl
  · rw [written, hnn]
    exact BitVec.and_zero

end Sys2Proof.Safety
end

section
/-! SUPPORT. The index register and memory transfers (42_index_memory.md R120 to R126): a write of `I`, the stored bytes by
their place from `I` on, and the registers a completed load-block leaves. -/

namespace Sys2Proof.Safety

open Sys2Proof.Machine

/-! ### The results (R121 to R123) -/

theorem toNat_add_zextByte (w : Word) (b : Byte) : (w + zextByte b).toNat = (w.toNat + b.toNat) % 65536 := by
  rw [BitVec.toNat_add, toNat_zextByte]

/-- Five times a byte does not wrap 16 bits (R122). -/
theorem toNat_five_mul_zextByte (b : Byte) : (5 * zextByte b).toNat = 5 * b.toNat := by
  have hlt := b.isLt
  have hmul : (5 * zextByte b).toNat = 5 * b.toNat % 65536 := by rw [BitVec.toNat_mul, toNat_zextByte]; rfl
  omega

/-- A digit of a byte, being at most the byte, is stored as it is (R123). -/
theorem toNat_ofNat_of_le_byte {b : Byte} {d : Nat} (h : d ≤ b.toNat) : (BitVec.ofNat 8 d).toNat = d :=
  Nat.mod_eq_of_lt (Nat.lt_of_le_of_lt h b.isLt)

/-! ### The transfers -/

section
variable {i : Instr} {s t : State}

/-- An instruction that ends in a write of `I`. -/
theorem exec_setI {w : Word} {n : Nat} (h : exec i s = .next (s.setI w).advance) (hw : w.toNat = n) :
    ∃ t, exec i s = .next t ∧ t.i.toNat = n ∧ t.pc = s.pc + 2 ∧ OnlyChanges [.i, .pc] s t :=
  ⟨_, h, hw, rfl, (onlyChanges_setI s w).trans (onlyChanges_advance _)⟩

/-- A completed store has its `k`-th byte at `I + k` (R123, R124). -/
theorem exec_byte_dataAddr_of_not_fault (hn : ¬ExecuteFault i s) (h : exec i s = .next t) {k : Nat}
    (hk : k < (storedBytes i s).length) : t.byte (s.dataAddr k) = (storedBytes i s).getD k 0 := by
  have inside : s.dataAddr 0 ≤ s.dataAddr k ∧ s.dataAddr k < s.dataAddr 0 + (storedBytes i s).length :=
    ⟨Nat.add_le_add_left (Nat.zero_le k) _, Nat.add_lt_add_left hk _⟩
  have place : s.dataAddr k - s.dataAddr 0 = k := Nat.add_sub_cancel_left _ _
  rw [exec_byte_of_not_fault hn h, byteAfterStore, if_pos inside, place]

/-- The registers after a completed load-block: the bytes from `I` on up to `x`, the old ones above (R125). -/
theorem exec_loadBlock_reg_of_not_fault {x : Nibble} (hn : ¬ExecuteFault (.loadBlock x) s)
    (h : exec (.loadBlock x) s = .next t) (r : Nibble) :
    t.reg r = if r ≤ x then s.byte (s.dataAddr r.toNat) else s.reg r := by
  have hx := x.isLt
  have hlen := State.length_readBlock s (x.toNat + 1)
  have hiff : 0 ≤ r.toNat ∧ r.toNat < 0 + (x.toNat + 1) ↔ r ≤ x := by
    rw [BitVec.le_def]
    omega
  cases (exec_loadBlock_of_not_fault hn).symm.trans h
  rw [State.advance_reg, State.reg_setRegsFrom s 0 _ r (by omega), hlen]
  simp only [hiff]
  split
  · next hr => exact State.getD_readBlock s _ _ (Nat.lt_succ_of_le hr)
  · rfl

end

/-- Settles O39: the stored digits are the decimal digits of the byte, each at most the byte. -/
theorem storeBcdWritesDigits : Obligations.StoreBcdWritesDigits := by
  intro x s hfit
  have hn : ¬ExecuteFault (.storeBcd x) s := Nat.not_lt.mpr hfit
  have h := exec_storeBcd_of_not_fault hn
  have stored {k : Nat} (hk : k < 3) := exec_byte_dataAddr_of_not_fault hn h hk
  refine ⟨decode_encode (i := .storeBcd x) rfl, _, h, ?_, ?_, ?_, exec_memoryKeptOutside h, rfl,
    exec_onlyChanges_of_not_fault hn h⟩
  · rw [stored (k := 0) (by decide)]
    exact toNat_ofNat_of_le_byte (Nat.div_le_self _ _)
  · rw [stored (k := 1) (by decide)]
    exact toNat_ofNat_of_le_byte ((Nat.mod_le _ _).trans (Nat.div_le_self _ _))
  · rw [stored (k := 2) (by decide)]
    exact toNat_ofNat_of_le_byte (Nat.mod_le _ _)

/-- Settles O40: register `r` is the `r`-th byte stored. -/
theorem storeBlockWritesRegisters : Obligations.StoreBlockWritesRegisters := by
  intro x s hfit
  have hn : ¬ExecuteFault (.storeBlock x) s := Nat.not_lt.mpr hfit
  have h := exec_storeBlock_of_not_fault hn
  have hlen : (storedBytes (.storeBlock x) s).length = x.toNat + 1 := State.length_regsUpTo s x
  refine ⟨decode_encode (i := .storeBlock x) rfl, _, h, fun r hr => ?_, hlen ▸ exec_memoryKeptOutside h, rfl,
    exec_onlyChanges_of_not_fault hn h⟩
  rw [exec_byte_dataAddr_of_not_fault hn h (hlen ▸ Nat.lt_succ_of_le hr)]
  exact State.getD_regsUpTo s x r hr

/-- Settles O41: the registers after load-block, below and above `x`. -/
theorem loadBlockReadsRegisters : Obligations.LoadBlockReadsRegisters := by
  intro x s hfit
  have hn : ¬ExecuteFault (.loadBlock x) s := Nat.not_lt.mpr hfit
  have h := exec_loadBlock_of_not_fault hn
  refine ⟨decode_encode (i := .loadBlock x) rfl, _, h, fun r hr => ?_, fun r hr => ?_, ?_,
    exec_onlyChanges_of_not_fault hn h⟩
  · rw [exec_loadBlock_reg_of_not_fault hn h, if_pos hr]
  · rw [exec_loadBlock_reg_of_not_fault hn h, if_neg (BitVec.not_le.mpr hr)]
  · rw [State.setRegsFrom_eq]; rfl

/-- Settles O43: store-block keeps `I` and leaves register `r` at the address from which load-block takes it. -/
theorem loadBlockUndoesStoreBlock : Obligations.LoadBlockUndoesStoreBlock := by
  intro x s t u hfit hstore hmem hi
  obtain ⟨-, t', e, stored, -, -, frame⟩ := storeBlockWritesRegisters x s hfit
  cases e.symm.trans hstore
  have hui : u.i = s.i := hi.trans (frame .i (by decide))
  obtain ⟨-, w, hload, loaded, -⟩ := loadBlockReadsRegisters x u (hui ▸ hfit)
  refine ⟨w, hload, fun r hr => ?_⟩
  have haddr : u.dataAddr r.toNat = s.dataAddr r.toNat := by rw [State.dataAddr, hui, State.dataAddr]
  rw [loaded r hr, haddr, hmem, stored r hr]

/-- Settles O37: a write of `I` with the zero-extended field. -/
theorem loadIndexSetsI : Obligations.LoadIndexSetsI := fun nnn _ =>
  ⟨decode_encode (i := .loadIndex nnn) rfl, exec_setI rfl (toNat_zextAddr nnn)⟩

/-- Settles O38: writes of `I` with the 16-bit sum and the exact product. -/
theorem indexArithmetic : Obligations.IndexArithmetic := fun x s =>
  ⟨decode_encode (i := .addIndex x) rfl, decode_encode (i := .fontAddress x) rfl,
    exec_setI rfl (toNat_add_zextByte s.i (s.reg x)), exec_setI rfl (toNat_five_mul_zextByte (s.reg x))⟩

end Sys2Proof.Safety
end

section
/-! SUPPORT. The display instructions (43_display.md R130 to R133): a completed draw in closed form, pixel by pixel and in
VF, and the steps that emit the frame-ready event. -/

namespace Sys2Proof.Safety

open Sys2Proof.Machine

/-- A 1 bit of a sprite row, by the value of the row's byte (R131). -/
theorem spriteBit_eq_true_iff (b : Byte) (col : Nat) :
    spriteBit b col = true ↔ b.toNat / 2 ^ (7 - col) % 2 = 1 := by
  rw [spriteBit, BitVec.getLsbD, Nat.testBit_eq_decide_div_mod_eq, decide_eq_true_iff]

section
variable {i : Instr} {s t : State} {x y n : Nibble} {py : Fin 32} {px : Fin 64}

/-! ### A completed draw (R131, R133) -/

/-- The set `S` of R133 is what the engine covers with the bytes it reads from `I` on. -/
theorem spriteOver_iff_spriteCovers :
    SpriteOver s x y n py px ↔ SpriteCovers (s.reg x) (s.reg y) 0 (s.readBlock n.toNat) py px := by
  unfold SpriteOver SpriteCovers
  refine exists_congr fun row => exists_congr fun col => ?_
  rw [State.length_readBlock, spriteBit_eq_true_iff, Nat.zero_add, eq_comm (b := py), eq_comm (b := px), Fin.ext_iff,
    Fin.ext_iff, and_comm (a := py.val = _)]
  exact and_congr_right fun hrow => by rw [State.getD_readBlock s _ _ hrow]; rfl

/-- A sprite of up to 15 rows is shorter than the 32 screen rows, so no two of its bits share a pixel. -/
theorem length_readBlock_nibble_le (s : State) (n : Nibble) : (s.readBlock n.toNat).length ≤ 32 := by
  have := n.isLt
  rw [State.length_readBlock]
  omega

/-- A draw completes exactly when the sprite it reads lies in memory (R46, R131). -/
theorem spriteInMemory_iff_not_executeFault : SpriteInMemory s n ↔ ¬ExecuteFault (.draw x y n) s := by
  simp only [SpriteInMemory, ExecuteFault]
  omega

theorem exec_draw_pixel_of_over (hn : ¬ExecuteFault (.draw x y n) s) (h : exec (.draw x y n) s = .next t)
    (ho : SpriteOver s x y n py px) : t.fb.pixel py px = !s.fb.pixel py px := by
  cases (exec_draw_eq_of_not_fault hn).symm.trans h
  exact pixel_plotRows_of_covers _ _ _ _ _ (length_readBlock_nibble_le s n) py px (spriteOver_iff_spriteCovers.mp ho)

theorem exec_draw_pixel_of_not_over (hn : ¬ExecuteFault (.draw x y n) s) (h : exec (.draw x y n) s = .next t)
    (ho : ¬SpriteOver s x y n py px) : t.fb.pixel py px = s.fb.pixel py px := by
  cases (exec_draw_eq_of_not_fault hn).symm.trans h
  exact pixel_plotRows_of_not_covers _ _ _ _ _ (length_readBlock_nibble_le s n) py px
    (mt spriteOver_iff_spriteCovers.mpr ho)

/-- VF after a completed draw, also where it is an operand: the flag is written last (R13, decision D12). -/
theorem exec_draw_flag (hn : ¬ExecuteFault (.draw x y n) s) (h : exec (.draw x y n) s = .next t) :
    ∃ hit, t.reg vf = flagByte hit ∧ (hit = true ↔ ∃ py px, SpriteOver s x y n py px ∧ s.fb.pixel py px = true) := by
  cases (exec_draw_eq_of_not_fault hn).symm.trans h
  refine ⟨_, State.reg_setReg_same _ vf _, ?_⟩
  simp only [spriteOver_iff_spriteCovers]
  exact hit_plotRows _ _ _ _ _ (length_readBlock_nibble_le s n)

/-- Where a sprite lies rests on `I`, memory and the two operand registers. -/
theorem spriteOver_congr (hi : t.i = s.i) (hmem : ∀ a, t.byte a = s.byte a) (hx : t.reg x = s.reg x)
    (hy : t.reg y = s.reg y) : SpriteOver t x y n py px ↔ SpriteOver s x y n py px := by
  simp only [SpriteOver, hi, hmem, hx, hy]

theorem flagByte_eq_one_iff (on : Bool) : flagByte on = 1 ↔ on = true := by cases on <;> decide

/-! ### The frame-ready event (R132) -/

theorem frameReadyIn_eq_true_iff : frameReadyIn i s = true ↔ ¬ExecuteFault i s ∧ ∃ x y n, i = .draw x y n := by
  cases i with
  | draw x y n => simp [frameReadyIn, executeFault_draw_iff]
  | _ => simp [frameReadyIn]

theorem frameReady_eq_true_iff : frameReady s = true ↔ ∃ i, s.pendingInstr = some i ∧ frameReadyIn i s = true := by
  unfold frameReady
  cases s.pendingInstr <;> simp

/-- A halted core has no instruction pending (R157). -/
theorem running_of_pendingInstr (h : s.pendingInstr = some i) : Running s := by
  unfold State.pendingInstr at h
  split at h
  · cases h
  · next hh => exact (halted_eq_false_iff s).mp (Bool.eq_false_iff.mpr hh)

/-- An instruction of a running core leaves it running exactly if it completes. -/
theorem exec_running_iff (hr : Running s) (h : exec i s = .next t) : Running t ↔ ¬ExecuteFault i s :=
  ⟨not_executeFault_of_running h, fun hn => (congrArg FaultRecord.code (exec_fault_of_not_fault hn h)).trans hr⟩

end

/-- Settles O46: the completed draw in closed form, its flag taken at both values. -/
theorem drawInvertsExactlyTheSprite : Obligations.DrawInvertsExactlyTheSprite := by
  intro x y n s hfit
  have hn : ¬ExecuteFault (.draw x y n) s := spriteInMemory_iff_not_executeFault.mp hfit
  have h := exec_draw_eq_of_not_fault hn
  obtain ⟨hit, hflag, hhit⟩ := exec_draw_flag hn h
  refine ⟨decode_encode (i := .draw x y n) rfl, frameReadyIn_eq_true_iff.mpr ⟨hn, x, y, n, rfl⟩, _, h,
    fun py px => ⟨exec_draw_pixel_of_over hn h, exec_draw_pixel_of_not_over hn h⟩, fun hset => ?_, fun hunset => ?_,
    fun r hr => exec_reg_of_not_fault hn h (beq_eq_false_iff_ne.mpr hr), rfl,
    exec_onlyChanges_of_not_fault hn h⟩
  · rw [hflag, hhit.mpr hset]
    rfl
  · have miss : hit = false := by
      rw [← Bool.not_eq_true, hhit]
      rintro ⟨py, px, hover, hpix⟩
      exact absurd hpix (by simp [hunset py px hover])
    rw [hflag, miss]
    rfl

/-- Settles O47: both draws invert the same pixels, since the first keeps `I`, memory and the operands. -/
theorem drawingTwiceRestoresTheScreen : Obligations.DrawingTwiceRestoresTheScreen := by
  intro x y n s t u hfit hfirst hsecond hvf
  have hn : ¬ExecuteFault (.draw x y n) s := spriteInMemory_iff_not_executeFault.mp hfit
  have hi : t.i = s.i := exec_onlyChanges hfirst .i (by simp [changedParts])
  have hn' : ¬ExecuteFault (.draw x y n) t := by simpa only [ExecuteFault, hi] using hn
  have keep (q : Nibble) (hq : q ≠ vf ∨ t.reg vf = s.reg vf) : t.reg q = s.reg q := by
    by_cases hqf : q = vf
    · subst hqf
      exact hq.resolve_left (· rfl)
    · exact exec_reg_of_not_fault hn hfirst (beq_eq_false_iff_ne.mpr hqf)
  have same (py px) : SpriteOver t x y n py px ↔ SpriteOver s x y n py px :=
    spriteOver_congr hi (exec_onlyChanges hfirst .mem (by simp [changedParts])) (keep x (hvf.imp_left And.left))
      (keep y (hvf.imp_left And.right))
  constructor
  · intro py px
    by_cases hover : SpriteOver s x y n py px
    · rw [exec_draw_pixel_of_over hn' hsecond ((same py px).mpr hover), exec_draw_pixel_of_over hn hfirst hover,
        Bool.not_not]
    · rw [exec_draw_pixel_of_not_over hn' hsecond (mt (same py px).mp hover),
        exec_draw_pixel_of_not_over hn hfirst hover]
  · obtain ⟨hit, hflag, hhit⟩ := exec_draw_flag hn' hsecond
    rw [hflag, flagByte_eq_one_iff, hhit]
    simp only [same]

/-- Settles O48: the pending draw is executed, and completing it is leaving the core running. -/
theorem frameReadyExactlyOnCompletedDraw : Obligations.FrameReadyExactlyOnCompletedDraw := by
  refine ⟨fun s t h => ?_, fun tr s htr => ?_⟩
  · change frameReady s = true ↔ _
    have running {i : Instr} (hp : s.pendingInstr = some i) : Running t ↔ ¬ExecuteFault i s :=
      exec_running_iff (running_of_pendingInstr hp) ((step_of_pendingInstr hp).symm.trans h)
    simp only [frameReady_eq_true_iff, frameReadyIn_eq_true_iff]
    constructor
    · rintro ⟨_, hp, hn, x, y, n, rfl⟩
      exact ⟨(running hp).mpr hn, x, y, n, hp⟩
    · rintro ⟨ht, x, y, n, hp⟩
      exact ⟨_, hp, (running hp).mp ht, x, y, n, rfl⟩
  · cases tr with
    | step => exact absurd rfl htr
    | reset | loadProgram _ | tick | setKey _ _ => rfl

/-- Settles O45: the cleared screen has no pixel set. -/
theorem clearScreenClearsEveryPixel : Obligations.ClearScreenClearsEveryPixel := fun _ =>
  ⟨decode_encode (i := .clearScreen) rfl, rfl, _, rfl, FrameBuffer.pixel_clear, rfl,
    exec_onlyChanges (i := .clearScreen) rfl⟩

end Sys2Proof.Safety
end

section
/-! SUPPORT. The keypad and the timers (44_keys_timers.md R140 to R145): the key skips by the flag they test, await-key by
the lowest set key, and its polling over a run. -/

namespace Sys2Proof.Machine

section
variable (s : State)

/-- A skip on one Boolean; the skips of two bytes are `skipIf_beq_pc` and `skipIf_bne_pc`. -/
theorem State.skipIf_flag_pc (on : Bool) : (s.skipIf on).pc = if on = true then s.pc + 4 else s.pc + 2 := by
  cases on <;> simp

theorem State.skipIf_not_flag_pc (on : Bool) : (s.skipIf !on).pc = if on = true then s.pc + 2 else s.pc + 4 := by
  cases on <;> simp

/-- Keys do not decide what a step executes. -/
@[simp] theorem State.setKeyFlag_pendingInstr (k : Nibble) (on : Bool) :
    (s.setKeyFlag k on).pendingInstr = s.pendingInstr := rfl

end

/-- The flag a key skip tests, its index a byte of at most 15 (R140). -/
theorem State.key_setWidth {s : State} {b : Byte} {k : Nibble} (h : b.toNat = k.toNat) :
    s.key (b.setWidth 4) = s.key k := by
  have hk : b.setWidth 4 = k := BitVec.eq_of_toNat_eq (by rw [BitVec.toNat_setWidth, h, Nat.mod_eq_of_lt k.isLt])
  rw [hk]

end Sys2Proof.Machine

namespace Sys2Proof.Safety

open Sys2Proof.Machine

section
variable {tr : Transaction} {ts us : List Transaction} {s t : State}

/-! ### Runs put together (R173) -/

theorem runTransactions_cons_of_next (h : transact tr s = .next t) :
    runTransactions (tr :: ts) s = runTransactions ts t := by
  simp only [runTransactions, h]

theorem runTransactions_append_of_next (h : runTransactions ts s = .next t) :
    runTransactions (ts ++ us) s = runTransactions us t := by
  induction ts generalizing s with
  | nil => cases Host.Outcome.next.inj h; rfl
  | cons tr rest ih =>
    obtain ⟨u, hu, hrest⟩ := runTransactions_cons h
    rw [List.cons_append, runTransactions_cons_of_next hu, ih hrest]

/-- A transaction without effect has none however often it is repeated. -/
theorem runTransactions_replicate_of_fixed (h : transact tr s = .next s) (n : Nat) :
    runTransactions (List.replicate n tr) s = .next s := by
  induction n with
  | zero => rfl
  | succ n ih => rw [List.replicate_succ, runTransactions_cons_of_next h, ih]

end

section
variable {s t : State} {x k : Nibble}

/-! ### await-key (R143) -/

/-- await-key with `k` the lowest set key takes `k` and consumes it (decision D14). -/
theorem exec_awaitKey_of_lowest (hset : s.key k = true) (hlow : ∀ j, j < k → s.key j = false) :
    ∃ t, exec (.awaitKey x) s = .next t ∧ (t.reg x).toNat = k.toNat ∧ (∀ r, r ≠ x → t.reg r = s.reg r) ∧
      t.key k = false ∧ (∀ j, j ≠ k → t.key j = s.key j) ∧ t.pc = s.pc + 2 ∧ OnlyChanges [.v, .keys, .pc] s t := by
  have h := exec_awaitKey_of_firstKey (x := x) ((State.firstKey_eq_some s k).mpr ⟨hset, hlow⟩)
  have keys (j : Nibble) : ((s.setReg x (k.setWidth 8)).setKeyFlag k false).advance.key j =
      if j = k then false else s.key j := State.key_setKeyFlag _ k j false
  refine ⟨_, h, ?_, fun r hr => State.reg_setReg_ne s x _ hr, ?_, fun j hj => ?_, rfl, exec_onlyChanges h⟩
  · rw [State.advance_reg, State.setKeyFlag_reg, State.reg_setReg_same]
    exact BitVec.toNat_setWidth_of_le (by decide)
  · rw [keys, if_pos rfl]
  · rw [keys, if_neg hj]

end

/-- Settles O51: await-key by its first key, none or the lowest set one. -/
theorem awaitKeyTakesTheLowestKey : Obligations.AwaitKeyTakesTheLowestKey := fun x s =>
  ⟨decode_encode (i := .awaitKey x) rfl, fun hnone => exec_awaitKey_of_no_key ((State.firstKey_eq_none s).mpr hnone),
    fun _ => exec_awaitKey_of_lowest⟩

/-- Settles O52: a poll leaves the state as it is, and the key set last is then the only one, so the lowest. -/
theorem awaitKeyPollsUntilAKeyIsSet : Obligations.AwaitKeyPollsUntilAKeyIsSet := by
  intro x k s polls hp hnone
  have idle : step s = .next s :=
    (step_of_pendingInstr hp).trans (exec_awaitKey_of_no_key ((State.firstKey_eq_none s).mpr hnone))
  have polled := runTransactions_replicate_of_fixed (tr := .step) idle polls
  have pressed (j : Nibble) : (s.setKeyFlag k true).key j = if j = k then true else s.key j :=
    State.key_setKeyFlag s k j true
  obtain ⟨t, h, hreg, hregs, hkey, hkeys, hpc, frame⟩ := exec_awaitKey_of_lowest (s := s.setKeyFlag k true) (x := x)
    ((pressed k).trans (if_pos rfl)) fun j hj => ((pressed j).trans (if_neg (BitVec.ne_of_lt hj))).trans (hnone j)
  have taken : transact .step (s.setKeyFlag k true) = .next t :=
    (step_of_pendingInstr ((s.setKeyFlag_pendingInstr k true).trans hp)).trans h
  have cleared (j : Nibble) : t.key j = false := by
    by_cases hj : j = k
    · exact hj ▸ hkey
    · rw [hkeys j hj, pressed, if_neg hj, hnone]
  refine ⟨polled, t, ?_, hreg, hregs, cleared, hpc, fun p hpart => ?_⟩
  · rw [runTransactions_append_of_next polled]
    exact (runTransactions_cons_of_next rfl).trans (runTransactions_cons_of_next taken)
  · by_cases hk : p = .keys
    · subst hk
      exact fun j => (cleared j).trans (hnone j).symm
    · exact ((onlyChanges_setKeyFlag s k true).trans frame) p (by simp_all)

/-- Settles O49: up to 15 both skips complete, on the flag of the key that `V[x]` names. -/
theorem keySkipsTestTheFlag : Obligations.KeySkipsTestTheFlag := by
  intro x k s hk
  have inRange : ¬(s.reg x).toNat > 15 := by
    have := k.isLt
    omega
  have pressed := exec_skipKeyPressed_of_not_fault (x := x) inRange
  have released := exec_skipKeyNotPressed_of_not_fault (x := x) inRange
  rw [State.key_setWidth hk] at pressed released
  exact ⟨decode_encode (i := .skipKeyPressed x) rfl, decode_encode (i := .skipKeyNotPressed x) rfl,
    ⟨_, pressed, s.skipIf_flag_pc _, onlyChanges_skipIf s _⟩,
    ⟨_, released, s.skipIf_not_flag_pc _, onlyChanges_skipIf s _⟩⟩

/-- Settles O50: a key index above 15 is the listed fault of both skips. -/
theorem keySkipsBeyondFifteenTrap : Obligations.KeySkipsBeyondFifteenTrap := by
  intro x s hbeyond
  rw [← toNat_zextByte]
  exact ⟨traps_of_executeFault (i := .skipKeyPressed x) hbeyond,
    traps_of_executeFault (i := .skipKeyNotPressed x) hbeyond⟩

/-- Settles O53: a register write of the delay timer, and writes of either timer with the register. -/
theorem timerInstructionsMoveTheByte : Obligations.TimerInstructionsMoveTheByte := fun x s =>
  ⟨decode_encode (i := .loadDelay x) rfl, decode_encode (i := .storeDelay x) rfl,
    decode_encode (i := .loadSoundStore x) rfl, exec_setReg (· = s.dt) rfl rfl,
    ⟨_, rfl, rfl, rfl, (onlyChanges_setDT s _).trans (onlyChanges_advance _)⟩,
    ⟨_, rfl, rfl, rfl, (onlyChanges_setST s _).trans (onlyChanges_advance _)⟩⟩

end Sys2Proof.Safety
end

section
/-! SUPPORT. The exceptions and the host's side (60_exceptions.md): a faulting step is one `raise` of the fetched word
(R150), a halted core takes host data only (R157), and what ticks, key writes and program loads do (R160 to R167). -/

namespace Sys2Proof.Machine

/-! ### A fetched word by its bytes (R42, R43) -/

section
variable {s : State} {a : Word}

/-- The word a fault record names: of a fetch out of bounds there is none, and 0 stands for it (R150). -/
theorem State.getD_fetch_of_gt (ha : a.toNat > 0xFFE) : (s.fetch a).getD 0 = 0 := by
  rw [State.fetch_of_gt ha, Option.getD_none]

theorem State.toNat_getD_fetch_of_le (ha : a.toNat ≤ 0xFFE) :
    ((s.fetch a).getD 0).toNat = (s.byte a.toNat).toNat * 256 + (s.byte (a.toNat + 1)).toNat := by
  rw [State.fetch_of_le ha, Option.getD_some, toNat_wordOfBytes]

end

/-! ### One tick, one load -/

/-- One tick takes `v` to `max(v - 1, 0)` (R160). -/
theorem toNat_countDown (b : Byte) : (countDown b).toNat = b.toNat - 1 := by
  unfold countDown
  split
  · next h => rw [h]; rfl
  · next h =>
    have hpos : b.toNat ≠ 0 := fun e => h (BitVec.eq_of_toNat_eq e)
    exact BitVec.toNat_sub_of_le (BitVec.le_def.mpr (Nat.pos_of_ne_zero hpos))

section
variable {bytes : List Byte} {s : State}

theorem loadProgram_of_le (h : bytes.length ≤ 3584) : loadProgram bytes s = (s.storeBytes 0x200 bytes, .ok) :=
  if_neg (Nat.not_lt.mpr h)

theorem loadProgram_of_gt (h : bytes.length > 3584) : loadProgram bytes s = (s, .romTooLarge) := if_pos h

end

end Sys2Proof.Machine

namespace Sys2Proof.Safety

open Sys2Proof.Machine

section
variable {i : Instr} {tr : Transaction} {s t : State} {k : Nibble}

/-! ### Faulting steps (R150, R151) -/

/-- InvalidDecode is no instruction's fault (R69, decision D27). -/
theorem executeFaultCode_ne_invalidDecode (i : Instr) : executeFaultCode i ≠ .invalidDecode := by
  cases i <;> exact FaultCode.noConfusion

/-- A running core that cannot come by an instruction faults in the fetch or in the decode. -/
theorem not_running_of_pendingInstr_none (hr : Running s) (hp : s.pendingInstr = none) (h : step s = .next t) :
    ¬Running t := by
  rcases step_cases h with ⟨hh, -⟩ | ⟨-, -, rfl⟩ | ⟨op, e, -, -, -, rfl⟩ | ⟨op, i, -, -, -, hi, -⟩
  · exact absurd hr ((halted_eq_true_iff s).mp hh)
  · exact FaultCode.noConfusion
  · exact FaultCode.noConfusion
  · rw [hp] at hi; cases hi

/-- A step that halts the core is one `raise`, of the fetched word. -/
theorem step_eq_raise_of_halts (hr : Running s) (h : step s = .next t) (ht : ¬Running t) :
    ∃ code info, code ≠ .invalidDecode ∧ t = s.raise code ((s.fetch s.pc).getD 0) info := by
  rcases step_cases h with ⟨hh, -⟩ | ⟨-, hf, rfl⟩ | ⟨op, e, -, hf, -, rfl⟩ | ⟨op, i, -, hf, hd, -, he⟩
  · exact absurd hr ((halted_eq_true_iff s).mp hh)
  · exact ⟨.fetchOutOfBounds, 0, FaultCode.noConfusion, by rw [hf]; rfl⟩
  · exact ⟨.unknownOpcode, 0, FaultCode.noConfusion, by rw [hf]; rfl⟩
  · have hfault : ExecuteFault i s := not_not.mp (mt (exec_running_iff hr he).mpr ht)
    cases (exec_of_executeFault hfault).symm.trans he
    refine ⟨_, executeFaultInfo i s, executeFaultCode_ne_invalidDecode i, ?_⟩
    rw [hf, Option.getD_some, (encode_of_decode hd).2]

/-! ### A halted core (R157) -/

theorem transact_onlyChanges_of_halted (hs : ¬Running s) (hreset : tr ≠ .reset) (h : transact tr s = .next t) :
    OnlyChanges [.dt, .st, .keys, .mem] s t := by
  cases tr with
  | reset => exact absurd rfl hreset
  | step =>
    cases (step_of_halted ((halted_eq_true_iff s).mpr hs)).symm.trans h
    exact OnlyChanges.refl _ s
  | tick =>
    cases Host.Outcome.next.inj h
    exact ((onlyChanges_setDT s _).trans (onlyChanges_setST _ _)).mono (by simp)
  | setKey k on =>
    cases Host.Outcome.next.inj h
    exact (onlyChanges_setKeyFlag s k on).mono (by simp)
  | loadProgram bytes =>
    cases Host.Outcome.next.inj h
    rcases loadProgram_eq bytes s with e | e <;> rw [e]
    · exact OnlyChanges.refl _ s
    · exact (onlyChanges_storeBytes s _ bytes).mono (by simp)

/-! ### The key flags under the instructions (R19, R143) -/

theorem eq_awaitKey_of_keys_mem_changedParts (h : .keys ∈ changedParts i) : ∃ x, i = .awaitKey x := by
  cases i with
  | awaitKey x => exact ⟨x, rfl⟩
  | _ => simp [changedParts] at h

theorem exec_key_of_ne_awaitKey (hi : ∀ x, i ≠ .awaitKey x) (h : exec i s = .next t) : t.key k = s.key k :=
  exec_onlyChanges h .keys (fun hm => (eq_awaitKey_of_keys_mem_changedParts hm).elim hi) k

theorem exec_awaitKey_key {x : Nibble} (h : exec (.awaitKey x) s = .next t) (hk : t.key k = true) : s.key k = true := by
  rcases exec_awaitKey_cases h with rfl | ⟨j, rfl⟩
  · exact hk
  · rw [State.advance_key, State.key_setKeyFlag] at hk
    split at hk
    · cases hk
    · exact hk

/-- No instruction sets a flag (R19). -/
theorem exec_key_true (h : exec i s = .next t) (hk : t.key k = true) : s.key k = true := by
  by_cases hi : ∃ x, i = .awaitKey x
  · obtain ⟨x, rfl⟩ := hi
    exact exec_awaitKey_key h hk
  · exact (exec_key_of_ne_awaitKey (not_exists.mp hi) h).symm.trans hk

end

/-- Settles O4: what every transaction keeps, the four host transactions keep. -/
theorem hostTransactionsKeepInvariant : Obligations.HostTransactionsKeepInvariant :=
  fun _ _ _ _ => transact_keeps_inv

/-- Settles O8, by induction on the transactions: each leaves the record, so the core stays halted for the next. -/
theorem haltedCoreOnlyTakesHostData : Obligations.HaltedCoreOnlyTakesHostData := by
  intro ts
  induction ts with
  | nil => exact fun s _ _ => ⟨s, rfl, OnlyChanges.refl _ s⟩
  | cons tr rest ih =>
    intro s hs hreset
    obtain ⟨htr, hrest⟩ := List.ne_and_not_mem_of_not_mem_cons hreset
    obtain ⟨u, hu⟩ := transact_exists_next tr s
    have first := transact_onlyChanges_of_halted hs htr.symm hu
    have record : u.fault = s.fault := first .fault (by simp)
    obtain ⟨t, ht, later⟩ := ih u (by rwa [Running, record]) hrest
    exact ⟨t, (runTransactions_cons_of_next hu).trans ht, fun p hp => (first p hp).trans (later p hp)⟩

/-- Settles O9: the faulting step is a `raise`, and a frame is ready only where the core stays running. -/
theorem faultsArePrecise : Obligations.FaultsArePrecise := by
  intro s t hr h ht
  have noFrame : frameReady s = false :=
    Bool.eq_false_iff.mpr fun hready => ht ((frameReadyExactlyOnCompletedDraw.1 s t h).mp hready).1
  obtain ⟨code, info, hcode, rfl⟩ := step_eq_raise_of_halts hr h ht
  exact ⟨rfl, rfl, hcode, noFrame, State.getD_fetch_of_gt, State.toNat_getD_fetch_of_le⟩

/-- Settles O10: by the pending instruction, none or the one executed. -/
theorem stepFaultsExactlyOnListedCauses : Obligations.StepFaultsExactlyOnListedCauses := by
  intro s t hr h
  cases hp : s.pendingInstr with
  | none => simp [not_running_of_pendingInstr_none hr hp h]
  | some i => simp [exec_running_iff hr ((step_of_pendingInstr hp).symm.trans h)]

/-- Settles O54, by induction on the number of ticks. -/
theorem ticksCountDownToZero : Obligations.TicksCountDownToZero := by
  intro n
  induction n with
  | zero => exact fun s => ⟨s, rfl, rfl, rfl, OnlyChanges.refl _ s⟩
  | succ n ih =>
    intro s
    obtain ⟨t, h, hdt, hst, later⟩ := ih (tick s)
    have first : OnlyChanges [.dt, .st] s (tick s) := (onlyChanges_setDT s _).trans (onlyChanges_setST _ _)
    have dt : (tick s).dt.toNat = s.dt.toNat - 1 := toNat_countDown s.dt
    have st : (tick s).st.toNat = s.st.toNat - 1 := toNat_countDown s.st
    exact ⟨t, (runTransactions_cons_of_next rfl).trans h, by omega, by omega,
      fun p hp => (first p hp).trans (later p hp)⟩

/-- Settles O55: the host's write of one flag, the instructions' frame, and the flags as they are. -/
theorem setKeySetsOneLevel : Obligations.SetKeySetsOneLevel := by
  refine ⟨fun k on s => ?_, fun i s t k h => ⟨fun hi => exec_key_of_ne_awaitKey hi h, exec_key_true h⟩,
    fun s k => Vector.getElem?_eq_getElem k.isLt⟩
  have keys (j : Nibble) : (setKey k on s).key j = if j = k then on else s.key j := State.key_setKeyFlag s k j on
  exact ⟨_, rfl, (keys k).trans (if_pos rfl), fun j hj => (keys j).trans (if_neg hj), onlyChanges_setKeyFlag s k on⟩

/-- Settles O56: an image that fits is one store, which ends inside memory. -/
theorem loadProgramCopiesOrRefusesWhole : Obligations.LoadProgramCopiesOrRefusesWhole := by
  intro bytes s
  refine ⟨fun hle => ?_, fun hgt => ?_⟩
  · have fits : 0x200 + bytes.length ≤ 4096 := by omega
    refine ⟨by rw [respond, loadProgram_of_le hle], s.storeBytes 0x200 bytes, by rw [transact, loadProgram_of_le hle],
      fun k hk => ?_, memoryKeptOutside_storeBytes s _ _ fits, onlyChanges_storeBytes s _ _⟩
    rw [State.byte_storeBytes s _ _ _ fits, if_pos (by omega), Nat.add_sub_cancel_left]
  · exact ⟨by rw [respond, loadProgram_of_gt hgt], by rw [transact, loadProgram_of_gt hgt]⟩

end Sys2Proof.Safety
end

section
/-! SUPPORT. Reset and the hazards (70_reset_and_hazards.md): what reset leaves (R27, R180), and the jump to itself, which
no step, tick or key write leaves (R185). -/

namespace Sys2Proof.Machine

section
variable {s t : State}

/-- What a step executes is decided by the record, `PC` and memory alone (R60). -/
theorem State.pendingInstr_congr (hfault : t.fault = s.fault) (hpc : t.pc = s.pc) (hmem : ∀ a, t.byte a = s.byte a) :
    t.pendingInstr = s.pendingInstr := by
  have halted : t.halted = s.halted := by rw [State.halted, State.halted, hfault]
  have fetched : t.fetch t.pc = s.fetch s.pc := by rw [State.fetch, State.fetch, hpc, hmem, hmem]
  unfold State.pendingInstr
  rw [halted, fetched]

/-- After reset no cell is listed, so memory reads as its reset content (R27). -/
theorem byte_resetCore (s : State) (a : Nat) : (resetCore s).byte a = Memory.unlisted s.config.glyphRom a := rfl

end

end Sys2Proof.Machine

namespace Sys2Proof.Safety

open Sys2Proof.Machine

section
variable {tr : Transaction} {s t : State}

/-! ### The jump to itself (R82, R185) -/

theorem step_of_atJumpToSelf (h : AtJumpToSelf s) : step s = .next s := by
  obtain ⟨-, nnn, hp, hpc⟩ := h
  calc step s = exec (.jump nnn) s := step_of_pendingInstr hp
    _ = .next (s.setPC (zextAddr nnn)) := rfl
    _ = .next s := by rw [hpc]; rfl

/-- Being at the jump to itself does not depend on the timers and the keys. -/
theorem AtJumpToSelf.of_onlyChanges (h : AtJumpToSelf s) (frame : OnlyChanges [.dt, .st, .keys] s t) :
    AtJumpToSelf t := by
  obtain ⟨hr, nnn, hp, hself⟩ := h
  have record : t.fault = s.fault := frame .fault (by simp)
  have pc : t.pc = s.pc := frame .pc (by simp)
  exact ⟨(congrArg FaultRecord.code record).trans hr, nnn,
    (State.pendingInstr_congr record pc (frame .mem (by simp))).trans hp, hself.trans pc.symm⟩

theorem transact_onlyChanges_of_atJumpToSelf (hs : AtJumpToSelf s)
    (htr : tr = .step ∨ tr = .tick ∨ ∃ k on, tr = .setKey k on) :
    ∃ t, transact tr s = .next t ∧ OnlyChanges [.dt, .st, .keys] s t := by
  rcases htr with rfl | rfl | ⟨k, on, rfl⟩
  · exact ⟨s, step_of_atJumpToSelf hs, OnlyChanges.refl _ s⟩
  · exact ⟨_, rfl, ((onlyChanges_setDT s _).trans (onlyChanges_setST _ _)).mono (by simp)⟩
  · exact ⟨_, rfl, (onlyChanges_setKeyFlag s k on).mono (by simp)⟩

end

/-- Settles O57: a step has no effect; in a mix, by induction on the transactions, each stays at the jump for the next. -/
theorem jumpToSelfNeverMovesOn : Obligations.JumpToSelfNeverMovesOn := by
  intro s ts hs hts
  refine ⟨runTransactions_replicate_of_fixed (tr := .step) (step_of_atJumpToSelf hs), ?_⟩
  induction ts generalizing s with
  | nil => exact ⟨s, rfl, hs, OnlyChanges.refl _ s⟩
  | cons tr rest ih =>
    obtain ⟨htr, hrest⟩ := List.forall_mem_cons.mp hts
    obtain ⟨u, hu, first⟩ := transact_onlyChanges_of_atJumpToSelf hs htr
    obtain ⟨t, ht, hself, later⟩ := ih u (hs.of_onlyChanges first) hrest
    exact ⟨t, (runTransactions_cons_of_next hu).trans ht, hself, fun p hp => (first p hp).trans (later p hp)⟩

/-- Settles O1: each vector is one zero repeated, and memory is the glyphs below 0x50 and zero above. -/
theorem resetGivesTheListedValues : Obligations.ResetGivesTheListedValues := fun s =>
  ⟨resetCore s, rfl, rfl, fun r => Vector.getElem_replicate r.isLt, rfl, rfl, fun j => Vector.getElem_replicate j.isLt,
    rfl, rfl, fun k => Vector.getElem_replicate k.isLt, FrameBuffer.pixel_clear, rfl,
    fun a => (byte_resetCore s a).trans (Memory.unlisted_of_lt _ a a.isLt),
    fun a hge _ => (byte_resetCore s a).trans (Memory.unlisted_of_ge _ a hge), rfl, rfl⟩

end Sys2Proof.Safety
end
